-- ==== Sys2Proof/Word.lean ====
section
/-! DEFINITION. The two word types of the core (00_scope.md R3): 8-bit data and registers, 16-bit
addresses and program counter. Arithmetic on them wraps, as `BitVec` arithmetic does. -/

namespace Sys2Proof

/-- The spec's `u8`: a data byte, or the contents of A, X, Y, SP or P (R3). -/
abbrev Byte := BitVec 8

/-- The spec's `u16`: an address, or the contents of PC (R3). -/
abbrev Addr := BitVec 16

end Sys2Proof
end

