-- ==== Sys2Proof/Config.lean ====
section
/-! DEFINITION. What is fixed for the machine and is not state: the named constants of 00_scope.md R4,
the contents of memory at construction (10_state.md R22), and which stack bases a configuration may
have (R5). The default stack base and the opcode table stand in files a repair may mend:
`Machine.stackBase` (Machine/Ops.lean) and `optable` (Decode.lean). -/

namespace Sys2Proof.Config

/-- RESET_VECTOR: the word at this address names the entry point (R4). -/
abbrev resetVector : Addr := 0xFFFC

/-- LOAD_ORIGIN: where load copies the program image (R4). -/
abbrev loadOrigin : Addr := 0x8000

/-- SP_RESET: the stack pointer after reset (R4). -/
abbrev spReset : Byte := 0xFF

/-- The longest image load accepts, the span 0x8000 to 0xFFFF (R103, R122). -/
abbrev imageLimit : Nat := 0x8000

/-- The number of byte cells of Mem (R3, R20). -/
abbrev memSize : Nat := 65536

/-- What a cell nothing has written reads as: memory is zero at construction (R20, R22). -/
abbrev memFill : Byte := 0x00

/-- The values STACK_BASE may take: the default 0x0100, or 0x0000, which reproduces what the source
reports of the repository's code (R5). -/
def stackBaseAdmitted (base : Addr) : Bool := base == 0x0100 || base == 0x0000

end Sys2Proof.Config
end

