-- ==== Sys2Proof/Syntax.lean ====
section
/-! DEFINITION. The instructions as syntax: the thirteen mnemonics (00_scope.md R2), the eleven
addressing modes (40_addressing_modes.md R60), and one constructor of `Instr` for each of the 39 rows
of the opcode table (30_encoding.md R53), in the table's order. -/

namespace Sys2Proof

/-- The closed list of mnemonics (R2). -/
inductive Mnemonic where
  | lda | ldx | ldy | sta | stx | sty | tax | txa | inx | jmp | jsr | rts | brk
  deriving DecidableEq, Repr

/-- The closed set of addressing modes (R60). -/
inductive Mode where
  | implied | immediate | zeroPage | zeroPageX | zeroPageY | absolute | absoluteX | absoluteY
  | indirect | indirectX | indirectY
  deriving DecidableEq, Repr

/-- One entry of OPTABLE: an opcode byte with the instruction and addressing mode it selects (R50, R53). -/
structure Row where
  opcode : Byte
  mnemonic : Mnemonic
  mode : Mode
  deriving DecidableEq, Repr

/-- An instruction with its operand. A two-byte instruction (format F1) carries its operand byte `b1`;
a three-byte instruction (format F2) carries the word `w`, that is b2 and b1 put together with `b1`
as the low byte (R51, R52). -/
inductive Instr where
  | brk
  | jsrAbs (w : Addr)
  | jmpAbs (w : Addr)
  | rts
  | jmpInd (b1 : Byte)
  | staIndX (b1 : Byte)
  | styZp (b1 : Byte)
  | staZp (b1 : Byte)
  | stxZp (b1 : Byte)
  | txa
  | styAbs (w : Addr)
  | staAbs (w : Addr)
  | stxAbs (w : Addr)
  | staIndY (b1 : Byte)
  | styZpX (b1 : Byte)
  | staZpX (b1 : Byte)
  | stxZpY (b1 : Byte)
  | staAbsY (w : Addr)
  | staAbsX (w : Addr)
  | ldyImm (b1 : Byte)
  | ldaIndX (b1 : Byte)
  | ldxImm (b1 : Byte)
  | ldyZp (b1 : Byte)
  | ldaZp (b1 : Byte)
  | ldxZp (b1 : Byte)
  | ldaImm (b1 : Byte)
  | tax
  | ldyAbs (w : Addr)
  | ldaAbs (w : Addr)
  | ldxAbs (w : Addr)
  | ldaIndY (b1 : Byte)
  | ldyZpX (b1 : Byte)
  | ldaZpX (b1 : Byte)
  | ldxZpY (b1 : Byte)
  | ldaAbsY (w : Addr)
  | ldyAbsX (w : Addr)
  | ldaAbsX (w : Addr)
  | ldxAbsY (w : Addr)
  | inx
  deriving DecidableEq, Repr

/-- The mnemonic of each row (R53). -/
def Instr.mnemonic : Instr → Mnemonic
  | .ldaImm _ | .ldaZp _ | .ldaZpX _ | .ldaAbs _ | .ldaAbsX _ | .ldaAbsY _ | .ldaIndX _ | .ldaIndY _ => .lda
  | .ldxImm _ | .ldxZp _ | .ldxZpY _ | .ldxAbs _ | .ldxAbsY _ => .ldx
  | .ldyImm _ | .ldyZp _ | .ldyZpX _ | .ldyAbs _ | .ldyAbsX _ => .ldy
  | .staZp _ | .staZpX _ | .staAbs _ | .staAbsX _ | .staAbsY _ | .staIndX _ | .staIndY _ => .sta
  | .stxZp _ | .stxZpY _ | .stxAbs _ => .stx
  | .styZp _ | .styZpX _ | .styAbs _ => .sty
  | .tax => .tax
  | .txa => .txa
  | .inx => .inx
  | .jmpAbs _ | .jmpInd _ => .jmp
  | .jsrAbs _ => .jsr
  | .rts => .rts
  | .brk => .brk

/-- The addressing mode of each row (R53). -/
def Instr.mode : Instr → Mode
  | .brk | .rts | .tax | .txa | .inx => .implied
  | .ldaImm _ | .ldxImm _ | .ldyImm _ => .immediate
  | .ldaZp _ | .ldxZp _ | .ldyZp _ | .staZp _ | .stxZp _ | .styZp _ => .zeroPage
  | .ldaZpX _ | .ldyZpX _ | .staZpX _ | .styZpX _ => .zeroPageX
  | .ldxZpY _ | .stxZpY _ => .zeroPageY
  | .ldaAbs _ | .ldxAbs _ | .ldyAbs _ | .staAbs _ | .stxAbs _ | .styAbs _ | .jmpAbs _ | .jsrAbs _ => .absolute
  | .ldaAbsX _ | .ldyAbsX _ | .staAbsX _ => .absoluteX
  | .ldaAbsY _ | .ldxAbsY _ | .staAbsY _ => .absoluteY
  | .jmpInd _ => .indirect
  | .ldaIndX _ | .staIndX _ => .indirectX
  | .ldaIndY _ | .staIndY _ => .indirectY

end Sys2Proof
end

