-- ==== Sys2Proof/WellFormed.lean ====
section
/-! DEFINITION. What has to hold before the core may run: the two conditions on an opcode table
(30_encoding.md R57), one entry for each opcode byte (R50), an admitted stack base (00_scope.md R5), a
program image that fits (60_exceptions.md R103). An operand byte has no reserved values (R56), so an
instruction is well formed as soon as its mnemonic may have its mode. -/

namespace Sys2Proof

/-- The instructions whose handler resolves an operand address (R57 a); the other five use none (R57 b). -/
def Mnemonic.resolves : Mnemonic → Bool
  | .lda | .ldx | .ldy | .sta | .stx | .sty | .jmp | .jsr => true
  | .tax | .txa | .inx | .rts | .brk => false

/-- R57 for one pair: a resolving instruction is not paired with Implied (a), and one that resolves
nothing is paired with Implied (b). -/
def pairWf (m : Mnemonic) (mode : Mode) : Bool :=
  if m.resolves then mode != .implied else mode == .implied

/-- No opcode byte has two entries: the opcode byte alone selects the instruction and mode (R50). -/
def distinctOpcodes : List Row → Bool
  | [] => true
  | r :: rs => rs.all (fun r' => r'.opcode != r.opcode) && distinctOpcodes rs

/-- A table the core may run with: R57 for every entry, and no opcode byte twice. -/
def tableWf (t : List Row) : Bool := t.all (fun r => pairWf r.mnemonic r.mode) && distinctOpcodes t

/-- What is wrong with an opcode table, with the offending entry (60_exceptions.md R100). -/
inductive TableDefect where
  /-- The condition InvalidAddressingMode: an instruction that resolves an operand address is paired with
  Implied (R57 a, R102). -/
  | invalidAddressingMode (row : Row)
  /-- An instruction that uses no operand is paired with another mode than Implied (R57 b). -/
  | operandUnused (row : Row)
  /-- A later entry has the same opcode byte (R50: log 16). -/
  | opcodeListedTwice (row : Row)
  deriving DecidableEq, Repr

/-- What is wrong with the entry `r` of a table in which `rs` comes after it. -/
def rowDefect (r : Row) (rs : List Row) : Option TableDefect :=
  if r.mnemonic.resolves && r.mode == .implied then some (.invalidAddressingMode r)
  else if !r.mnemonic.resolves && r.mode != .implied then some (.operandUnused r)
  else if rs.any (fun r' => r'.opcode == r.opcode) then some (.opcodeListedTwice r)
  else none

/-- The check of OPTABLE at start-up (R102): the first defect of a table, `none` exactly if `tableWf` holds. -/
def tableDefect : List Row → Option TableDefect
  | [] => none
  | r :: rs =>
    match rowDefect r rs with
    | some d => some d
    | none => tableDefect rs

/-- A program image load accepts (R103, R122). -/
def imageWf (image : List Byte) : Bool := decide (image.length ≤ Config.imageLimit)

/-- An instruction is well formed when R57 allows its pair; its operand bits are all legal (R56). -/
def Instr.wf (i : Instr) : Bool := pairWf i.mnemonic i.mode

end Sys2Proof
end

