-- ==== Sys2Proof/Decode.lean ====
section
/-! DEFINITION. The encoding (30_encoding.md R50 to R56): the opcode table as the spec lists it, the
decoder from bytes, the encoder, and the helpers that put bytes together into words and take words
apart (little-endian, 20_memory.md R34). -/

namespace Sys2Proof

/-- `hi * 256 + lo`: the u16 whose high byte is `hi` (00_scope.md section 5). -/
def word (hi lo : Byte) : Addr := hi ++ lo

/-- `w[7:0]`. -/
def loByte (w : Addr) : Byte := w.extractLsb' 0 8

/-- `w[15:8]`. -/
def hiByte (w : Addr) : Byte := w.extractLsb' 8 8

/-- `zext_16(b)`. -/
def zext (b : Byte) : Addr := b.setWidth 16

/-- OPTABLE, opcode bytes 0x00 to 0x8E (R53; the byte values and pairings are the spec's decision D1:
log 1). -/
def optableLow : List Row :=
  [⟨0x00, .brk, .implied⟩, ⟨0x20, .jsr, .absolute⟩, ⟨0x4C, .jmp, .absolute⟩, ⟨0x60, .rts, .implied⟩,
   ⟨0x6C, .jmp, .indirect⟩, ⟨0x81, .sta, .indirectX⟩, ⟨0x84, .sty, .zeroPage⟩, ⟨0x85, .sta, .zeroPage⟩,
   ⟨0x86, .stx, .zeroPage⟩, ⟨0x8A, .txa, .implied⟩, ⟨0x8C, .sty, .absolute⟩, ⟨0x8D, .sta, .absolute⟩,
   ⟨0x8E, .stx, .absolute⟩]

/-- OPTABLE, opcode bytes 0x91 to 0xA9 (R53). -/
def optableMid : List Row :=
  [⟨0x91, .sta, .indirectY⟩, ⟨0x94, .sty, .zeroPageX⟩, ⟨0x95, .sta, .zeroPageX⟩, ⟨0x96, .stx, .zeroPageY⟩,
   ⟨0x99, .sta, .absoluteY⟩, ⟨0x9D, .sta, .absoluteX⟩, ⟨0xA0, .ldy, .immediate⟩, ⟨0xA1, .lda, .indirectX⟩,
   ⟨0xA2, .ldx, .immediate⟩, ⟨0xA4, .ldy, .zeroPage⟩, ⟨0xA5, .lda, .zeroPage⟩, ⟨0xA6, .ldx, .zeroPage⟩,
   ⟨0xA9, .lda, .immediate⟩]

/-- OPTABLE, opcode bytes 0xAA to 0xE8 (R53). -/
def optableHigh : List Row :=
  [⟨0xAA, .tax, .implied⟩, ⟨0xAC, .ldy, .absolute⟩, ⟨0xAD, .lda, .absolute⟩, ⟨0xAE, .ldx, .absolute⟩,
   ⟨0xB1, .lda, .indirectY⟩, ⟨0xB4, .ldy, .zeroPageX⟩, ⟨0xB5, .lda, .zeroPageX⟩, ⟨0xB6, .ldx, .zeroPageY⟩,
   ⟨0xB9, .lda, .absoluteY⟩, ⟨0xBC, .ldy, .absoluteX⟩, ⟨0xBD, .lda, .absoluteX⟩, ⟨0xBE, .ldx, .absoluteY⟩,
   ⟨0xE8, .inx, .implied⟩]

/-- OPTABLE: the 39 entries of R53 and no other. -/
def optable : List Row := optableLow ++ optableMid ++ optableHigh

/-- `OPTABLE(op)`: the entry of an opcode byte, if it has one (R77). -/
def lookup (t : List Row) (op : Byte) : Option (Mnemonic × Mode) :=
  (t.find? (fun r => r.opcode == op)).map (fun r => (r.mnemonic, r.mode))

/-- The three instruction formats with what fills them (R51): no operand byte, one, or two. -/
inductive Form where
  | f0 (i : Instr)
  | f1 (make : Byte → Instr)
  | f2 (make : Addr → Instr)

/-- The instruction an opcode byte begins; `none` for the 217 unsupported bytes (R53, R55). All eight
bits are matched, and nothing else is looked at (R77). -/
def form (op : Byte) : Option Form :=
  match op.toNat with
  | 0x00 => some (.f0 .brk)
  | 0x20 => some (.f2 .jsrAbs)
  | 0x4C => some (.f2 .jmpAbs)
  | 0x60 => some (.f0 .rts)
  | 0x6C => some (.f1 .jmpInd)
  | 0x81 => some (.f1 .staIndX)
  | 0x84 => some (.f1 .styZp)
  | 0x85 => some (.f1 .staZp)
  | 0x86 => some (.f1 .stxZp)
  | 0x8A => some (.f0 .txa)
  | 0x8C => some (.f2 .styAbs)
  | 0x8D => some (.f2 .staAbs)
  | 0x8E => some (.f2 .stxAbs)
  | 0x91 => some (.f1 .staIndY)
  | 0x94 => some (.f1 .styZpX)
  | 0x95 => some (.f1 .staZpX)
  | 0x96 => some (.f1 .stxZpY)
  | 0x99 => some (.f2 .staAbsY)
  | 0x9D => some (.f2 .staAbsX)
  | 0xA0 => some (.f1 .ldyImm)
  | 0xA1 => some (.f1 .ldaIndX)
  | 0xA2 => some (.f1 .ldxImm)
  | 0xA4 => some (.f1 .ldyZp)
  | 0xA5 => some (.f1 .ldaZp)
  | 0xA6 => some (.f1 .ldxZp)
  | 0xA9 => some (.f1 .ldaImm)
  | 0xAA => some (.f0 .tax)
  | 0xAC => some (.f2 .ldyAbs)
  | 0xAD => some (.f2 .ldaAbs)
  | 0xAE => some (.f2 .ldxAbs)
  | 0xB1 => some (.f1 .ldaIndY)
  | 0xB4 => some (.f1 .ldyZpX)
  | 0xB5 => some (.f1 .ldaZpX)
  | 0xB6 => some (.f1 .ldxZpY)
  | 0xB9 => some (.f2 .ldaAbsY)
  | 0xBC => some (.f2 .ldyAbsX)
  | 0xBD => some (.f2 .ldaAbsX)
  | 0xBE => some (.f2 .ldxAbsY)
  | 0xE8 => some (.f0 .inx)
  | _ => none

/-- Fill a format from the two bytes after the opcode; a format uses only the bytes it has, and the
two-byte operand is low byte first (R51, R52). -/
def Form.fill (b1 b2 : Byte) : Form → Instr
  | .f0 i => i
  | .f1 make => make b1
  | .f2 make => make (word b2 b1)

/-- The instruction at an address, from the byte there and the two after it. `none` has one meaning: the
opcode byte is unsupported (R55). -/
def decodeInstr (op b1 b2 : Byte) : Option Instr := (form op).map (Form.fill b1 b2)

/-- Why a list of bytes holds no instruction at its front. -/
inductive Reject where
  /-- The first byte has no entry in OPTABLE (R55). -/
  | unsupportedOpcode (op : Byte)
  /-- The list ends before the operand bytes its opcode asks for. It cannot happen in Mem, where every
  address names a cell. -/
  | truncated (op : Byte)
  /-- There is no byte. -/
  | noBytes
  deriving DecidableEq, Repr

/-- What decoding a list of bytes gives: an instruction with the bytes that are left, or a rejection. -/
inductive Decoded where
  | accepted (i : Instr) (rest : List Byte)
  | rejected (r : Reject)
  deriving DecidableEq, Repr

/-- Decode the instruction at the front of any list of bytes. -/
def decodeBytes : List Byte → Decoded
  | [] => .rejected .noBytes
  | op :: rest =>
    match form op with
    | none => .rejected (.unsupportedOpcode op)
    | some (.f0 i) => .accepted i rest
    | some (.f1 make) =>
      match rest with
      | b1 :: rest' => .accepted (make b1) rest'
      | [] => .rejected (.truncated op)
    | some (.f2 make) =>
      match rest with
      | b1 :: b2 :: rest' => .accepted (make (word b2 b1)) rest'
      | _ => .rejected (.truncated op)

/-- The opcode byte of each instruction (R53). -/
def Instr.opcode : Instr → Byte
  | .brk => 0x00
  | .jsrAbs _ => 0x20
  | .jmpAbs _ => 0x4C
  | .rts => 0x60
  | .jmpInd _ => 0x6C
  | .staIndX _ => 0x81
  | .styZp _ => 0x84
  | .staZp _ => 0x85
  | .stxZp _ => 0x86
  | .txa => 0x8A
  | .styAbs _ => 0x8C
  | .staAbs _ => 0x8D
  | .stxAbs _ => 0x8E
  | .staIndY _ => 0x91
  | .styZpX _ => 0x94
  | .staZpX _ => 0x95
  | .stxZpY _ => 0x96
  | .staAbsY _ => 0x99
  | .staAbsX _ => 0x9D
  | .ldyImm _ => 0xA0
  | .ldaIndX _ => 0xA1
  | .ldxImm _ => 0xA2
  | .ldyZp _ => 0xA4
  | .ldaZp _ => 0xA5
  | .ldxZp _ => 0xA6
  | .ldaImm _ => 0xA9
  | .tax => 0xAA
  | .ldyAbs _ => 0xAC
  | .ldaAbs _ => 0xAD
  | .ldxAbs _ => 0xAE
  | .ldaIndY _ => 0xB1
  | .ldyZpX _ => 0xB4
  | .ldaZpX _ => 0xB5
  | .ldxZpY _ => 0xB6
  | .ldaAbsY _ => 0xB9
  | .ldyAbsX _ => 0xBC
  | .ldaAbsX _ => 0xBD
  | .ldxAbsY _ => 0xBE
  | .inx => 0xE8

/-- The operand bytes of each instruction, in memory order (R51). -/
def Instr.operandBytes : Instr → List Byte
  | .brk | .rts | .tax | .txa | .inx => []
  | .jmpInd b1 | .staIndX b1 | .styZp b1 | .staZp b1 | .stxZp b1 | .staIndY b1 | .styZpX b1 | .staZpX b1
  | .stxZpY b1 | .ldyImm b1 | .ldaIndX b1 | .ldxImm b1 | .ldyZp b1 | .ldaZp b1 | .ldxZp b1 | .ldaImm b1
  | .ldaIndY b1 | .ldyZpX b1 | .ldaZpX b1 | .ldxZpY b1 => [b1]
  | .jsrAbs w | .jmpAbs w | .styAbs w | .staAbs w | .stxAbs w | .staAbsY w | .staAbsX w | .ldyAbs w
  | .ldaAbs w | .ldxAbs w | .ldaAbsY w | .ldyAbsX w | .ldaAbsX w | .ldxAbsY w => [loByte w, hiByte w]

/-- The bytes of an instruction, from its opcode's address upward (R50). -/
def encode (i : Instr) : List Byte := i.opcode :: i.operandBytes

/-- Byte `k` of an instruction whose `nbits` bits are `w`, numbered as spec/opcode_table.json numbers
them: byte k is bits 8k+7 to 8k, and every bit from `nbits` upward is 0. -/
def tableByte (nbits w k : Nat) : Byte := BitVec.ofNat 8 (w % 2 ^ nbits / 256 ^ k)

/-- The instruction the decoder reads from the bits `w` of an opcode-table row of `nbits` bits. -/
def decodeTableWord (nbits w : Nat) : Option Instr :=
  decodeInstr (tableByte nbits w 0) (tableByte nbits w 1) (tableByte nbits w 2)

end Sys2Proof
end

