-- ==== Sys2Proof/Machine/State.lean ====
section
/-! DEFINITION. The whole state of the core (10_state.md): A, X, Y, SP, P, PC, Mem and the run state,
and nothing else (R23); the reasons a step can stop; the state right after construction and reset. -/

namespace Sys2Proof.Machine

/-- The condition that can arise while the core runs (60_exceptions.md R100, R101). It has a name and no
numeric code (R104). -/
inductive Condition where
  /-- The byte `op` fetched at `loc` has no entry in OPTABLE. -/
  | unsupportedOpcode (op : Byte) (loc : Addr)
  deriving DecidableEq, Repr

/-- RUN, the dispatcher's state (10_state.md R19). -/
inductive RunState where
  /-- Constructed and not yet reset. -/
  | powerOn
  /-- Entered by reset; the one state in which a step is enabled. -/
  | running
  /-- BRK has been executed. -/
  | halted
  /-- A step met the condition `c`. -/
  | faulted (c : Condition)
  deriving DecidableEq, Repr

/-- Mem, written as the cells that differ from `Config.memFill`, by strictly rising address. -/
abbrev Memory := List Host.Cell

/-- The canonical form: addresses below 65536, strictly rising, and no cell listed with the value an
unlisted address reads as. -/
def Memory.wf : Memory → Bool
  | [] => true
  | c :: cs =>
    decide (c.1 < Config.memSize) && c.2 != Config.memFill && cs.all (fun d => decide (c.1 < d.1)) &&
      Memory.wf cs

/-- The state of the core (10_state.md R10 to R20). -/
structure State where
  /-- The accumulator (R10). -/
  a : Byte
  /-- Index register X (R11). -/
  x : Byte
  /-- Index register Y (R12). -/
  y : Byte
  /-- The stack pointer: the offset of the next free stack cell (R13). -/
  sp : Byte
  /-- The status register: bit 7 is N, bit 1 is Z, six storage bits without a name (R15). -/
  p : Byte
  /-- The program counter: between steps, the address of the next opcode byte (R14). -/
  pc : Addr
  /-- RUN (R19). -/
  run : RunState
  /-- The 65536 byte cells (R20). -/
  mem : Memory
  deriving DecidableEq, Repr

/-- Why `step` or the parametric step of Machine/Reference.lean stops. None of the first three is an
error of a program: they say that no step is enabled (41_dispatch.md R75, 70_reset_and_hazards.md R126).
All are safe: the machine stops where the spec gives no step. -/
inductive Fault where
  /-- Raised by `step` and `stepWith` in the run state PowerOn: no step before the first reset. Safe. -/
  | stepBeforeReset
  /-- Raised by `step` and `stepWith` in the run state Halted: only reset leaves it. Safe. -/
  | stepWhenHalted
  /-- Raised by `step` and `stepWith` in a Faulted run state: only reset leaves it. It reports the
  condition found there. Safe. -/
  | stepWhenFaulted (c : Condition)
  /-- Raised by `stepWith` alone, where Implied reaches the resolver; it records the table entry (R100,
  R102). It cannot happen with a well-formed table, and an ill-formed one is refused first. Safe. -/
  | invalidAddressingMode (row : Row)
  deriving DecidableEq, Repr

/-- Why the model gives no meaning. `exec` and `step` never answer with one of these: every instruction
has its meaning. -/
inductive Refusal where
  /-- An arm of `exec` without a meaning; no arm is left in that state. Safe. -/
  | notModelled (mnemonic : String)
  /-- Raised by `stepWith` alone: the opcode table is not well formed (30_encoding.md R57, R102); it records
  the defect and the offending entry (R100). Safe. -/
  | illFormedTable (d : TableDefect)
  /-- Raised by `stepWith` alone: the stack base is neither 0x0100 nor 0x0000 (00_scope.md R5). Safe. -/
  | stackBaseNotAdmitted
  deriving DecidableEq, Repr

/-- What a step, or the meaning of an instruction, answers. -/
abbrev Result := Host.Outcome State Fault Refusal

/-- The machine right after construction and reset, with nothing loaded (R21, R22): memory is all zero,
so the word at the reset vector, and with it PC, is 0x0000. -/
def State.reset : State where
  a := 0x00
  x := 0x00
  y := 0x00
  sp := Config.spReset
  p := 0x00
  pc := 0x0000
  run := .running
  mem := []

end Sys2Proof.Machine
end

