-- ==== Sys2Proof/Machine/Flags.lean ====
section
/-! DEFINITION. The status register's two flags and the one rule that updates them (10_state.md R15 to
R18). -/

namespace Sys2Proof.Machine

/-- Z, bit 1 of P (R15). -/
def zFlag (p : Byte) : Bool := p.getLsbD 1

/-- N, bit 7 of P (R15). -/
def nFlag (p : Byte) : Bool := p.getLsbD 7

/-- The status register after `SetZN(v)` with `p` before it: bits 7 and 1 cleared and set anew from `v`,
the six other bits kept (R18). -/
def setZN (p v : Byte) : Byte := (p &&& 0x7D#8) ||| (if v = 0#8 then 0x02#8 else 0x00#8) ||| (v &&& 0x80#8)

end Sys2Proof.Machine
end

