-- ==== Sys2Proof/Machine/Ops.lean ====
section
/-! DEFINITION. The named operations every meaning is made of: the memory primitives (20_memory.md R31 to
R35), register writes, the stack engine (44_stack_control_transfer.md R90 to R92), the dispatcher's
treatment of an instruction's outcome (41_dispatch.md R75, R76), the one condition a step can raise
(60_exceptions.md R101), and reset, the only way out of it (R109, 70_reset_and_hazards.md R124). -/

namespace Sys2Proof.Machine

/-- The byte at address `k`. -/
def Memory.get : Memory → Nat → Byte
  | [], _ => Config.memFill
  | c :: cs, k => if c.1 = k then c.2 else Memory.get cs k

/-- List the cell `(k, v)` before the first cell with a greater address. -/
def Memory.insert (k : Nat) (v : Byte) : Memory → Memory
  | [] => [(k, v)]
  | c :: cs => if k < c.1 then (k, v) :: c :: cs else c :: Memory.insert k v cs

/-- Mem after `v` is written at `k`. Writing what an unlisted address reads as leaves the address
unlisted, so that equal memories are equal lists. -/
def Memory.set (m : Memory) (k : Nat) (v : Byte) : Memory :=
  let rest : Memory := m.filter (fun c => c.1 != k)
  if v = Config.memFill then rest else Memory.insert k v rest

namespace State

/-- `BusRead(a)`, `MemRead(a, 1)` (R31, R32). -/
def busRead (s : State) (a : Addr) : Byte := s.mem.get a.toNat

/-- `BusWrite(a, v)`, `MemWrite(a, 1, v)` (R31, R33). -/
def busWrite (s : State) (a : Addr) (v : Byte) : State := { s with mem := s.mem.set a.toNat v }

/-- `MemRead(a, 2)`: little-endian, the second address modulo 65536 (R34). -/
def read16 (s : State) (a : Addr) : Addr := word (s.busRead (a + 1)) (s.busRead a)

/-- `MemWrite(a, 2, w)` (R35). -/
def write16 (s : State) (a w : Addr) : State := (s.busWrite a (loByte w)).busWrite (a + 1) (hiByte w)

def setA (s : State) (v : Byte) : State := { s with a := v }
def setX (s : State) (v : Byte) : State := { s with x := v }
def setY (s : State) (v : Byte) : State := { s with y := v }
def setSp (s : State) (v : Byte) : State := { s with sp := v }
def setP (s : State) (v : Byte) : State := { s with p := v }
def setPc (s : State) (v : Addr) : State := { s with pc := v }
def setRun (s : State) (v : RunState) : State := { s with run := v }

/-- `SetZN(v)` on the state (10_state.md R18). -/
def flagZN (s : State) (v : Byte) : State := s.setP (setZN s.p v)

/-- PC moves past the opcode byte: what the dispatcher does before decoding (41_dispatch.md R75). -/
def pastOpcode (s : State) : State := s.setPc (s.pc + 1)

end State

/-- STACK_BASE, the default of 00_scope.md R5 (the spec's decision D2: log 2). -/
def stackBase : Addr := 0x0100

/-- `StackAddr(SP)`, the address of the stack cell SP names (44_stack_control_transfer.md R90). -/
def stackAddr (base : Addr) (sp : Byte) : Addr := base + zext sp

/-- `Push(b)`: write the cell SP names, then decrement SP (R91). -/
def push (base : Addr) (b : Byte) (s : State) : State :=
  (s.busWrite (stackAddr base s.sp) b).setSp (s.sp - 1)

/-- `Pop()`: increment SP, then read the cell SP names; the byte, and the state after (R92). -/
def pop (base : Addr) (s : State) : Byte × State :=
  (s.busRead (stackAddr base (s.sp + 1)), s.setSp (s.sp + 1))

/-- The outcomes of executing an instruction (41_dispatch.md R76). -/
inductive Flow where
  | cont
  | jumped (t : Addr)
  | halt
  deriving DecidableEq, Repr

/-- What a handler leaves: the state, and the outcome the dispatcher acts on. -/
structure Handled where
  st : State
  flow : Flow
  deriving DecidableEq, Repr

/-- What the dispatcher does after the handler: the generic advance, the jump without it, or the halt
(R75, R78). `size` is the mode's OperandSize. -/
def finish (size : Addr) (h : Handled) : State :=
  match h.flow with
  | .cont => h.st.setPc (h.st.pc + size)
  | .jumped t => h.st.setPc t
  | .halt => h.st.setRun .halted

/-- Run a handler as `Step()` does once the opcode is decoded: PC past the opcode byte, the handler, and
then what its outcome asks for (R75). RUN is not looked at: `step` does that (log 17). -/
def perform (size : Addr) (handler : State → Handled) (s : State) : Result :=
  .next (finish size (handler s.pastOpcode))

/-- The condition UnsupportedOpcode is taken: RUN records the byte and its address, PC is past the byte,
and nothing else changes; no handler is entered (60_exceptions.md R101, R108). -/
def raiseUnsupportedOpcode (op : Byte) (s : State) : State :=
  s.pastOpcode.setRun (.faulted (.unsupportedOpcode op s.pc))

/-- `reset`, from any run state (70_reset_and_hazards.md R124). There is no other return from a condition
(60_exceptions.md R109). -/
def resetCore (s : State) : State where
  a := 0x00
  x := 0x00
  y := 0x00
  sp := Config.spReset
  p := 0x00
  pc := s.read16 Config.resetVector
  run := .running
  mem := s.mem

end Sys2Proof.Machine
end

