-- ==== Sys2Proof/Machine/Operands.lean ====
section
/-! DEFINITION. The addressing-mode resolver (40_addressing_modes.md). The first part gives each mode's
effective address from the operand an instruction carries; the second is the resolver as the spec writes
it, reading the operand bytes at PC. -/

namespace Sys2Proof.Machine

/-- `OperandSize(mode)`, what the dispatcher adds to PC (R72). -/
def operandSize : Mode → Addr
  | .implied => 0
  | .immediate | .zeroPage | .zeroPageX | .zeroPageY | .indirect | .indirectX | .indirectY => 1
  | .absolute | .absoluteX | .absoluteY => 2

/-- The word at a zero-page pointer: low byte at `p`, high byte at `p + 1` modulo 256 (R68 to R70; the
wrap in Indirect and Indirect_Y is the spec's decision: logs 5 and 6). -/
def pointerWord (p : Byte) (s : State) : Addr := word (s.busRead (zext (p + 1))) (s.busRead (zext p))

/-- ZeroPage (R62). -/
def eaZeroPage (b1 : Byte) : Addr := zext b1

/-- ZeroPage_X: the sum wraps in the zero page (R63). -/
def eaZeroPageX (b1 : Byte) (s : State) : Addr := zext (b1 + s.x)

/-- ZeroPage_Y: the sum wraps in the zero page (R64). -/
def eaZeroPageY (b1 : Byte) (s : State) : Addr := zext (b1 + s.y)

/-- Absolute (R65). -/
def eaAbsolute (w : Addr) : Addr := w

/-- Absolute_X: modulo 65536 (R66). -/
def eaAbsoluteX (w : Addr) (s : State) : Addr := w + zext s.x

/-- Absolute_Y: modulo 65536 (R67). -/
def eaAbsoluteY (w : Addr) (s : State) : Addr := w + zext s.y

/-- Indirect: the word the zero-page pointer holds (R68; one operand byte is the spec's decision: log 5). -/
def eaIndirect (b1 : Byte) (s : State) : Addr := pointerWord b1 s

/-- Indirect_X: X is added to the pointer's address (R69). -/
def eaIndirectX (b1 : Byte) (s : State) : Addr := pointerWord (b1 + s.x) s

/-- Indirect_Y: Y is added to the word the pointer holds (R70). -/
def eaIndirectY (b1 : Byte) (s : State) : Addr := pointerWord b1 s + zext s.y

/-- `EA(mode)`, with PC at the first operand byte (R60 to R70). Implied has no effective address: `none`,
never a zero (R71). -/
def ea (mode : Mode) (s : State) : Option Addr :=
  let b1 := s.busRead s.pc
  let w := s.read16 s.pc
  match mode with
  | .implied => none
  | .immediate => some s.pc
  | .zeroPage => some (eaZeroPage b1)
  | .zeroPageX => some (eaZeroPageX b1 s)
  | .zeroPageY => some (eaZeroPageY b1 s)
  | .absolute => some (eaAbsolute w)
  | .absoluteX => some (eaAbsoluteX w s)
  | .absoluteY => some (eaAbsoluteY w s)
  | .indirect => some (eaIndirect b1 s)
  | .indirectX => some (eaIndirectX b1 s)
  | .indirectY => some (eaIndirectY b1 s)

end Sys2Proof.Machine
end

