-- ==== Sys2Proof/Machine/Control.lean ====
section
/-! DEFINITION. Control transfer (44_stack_control_transfer.md: JMP, JSR, RTS) and halt (45_halt.md: BRK).
The stack base is an argument of the handlers; the meanings take the default. -/

namespace Sys2Proof.Machine

/-- JMP: Jumped to the effective address (R93). -/
def jump (t : Addr) (s : State) : Handled := ⟨s, .jumped t⟩

/-- JSR: with the target `t` resolved and PC at the first operand byte, PC moves past the operand, and
PC - 1, the address of the instruction's last byte, is pushed high byte first (R94; the order is the
spec's decision D4: log 4). -/
def jumpSubroutine (base size t : Addr) (s : State) : Handled :=
  let s := s.setPc (s.pc + size)
  let ret := s.pc - 1
  ⟨push base (loByte ret) (push base (hiByte ret) s), .jumped t⟩

/-- RTS: pop the low byte, pop the high byte, jump to the popped word plus 1 (R95). -/
def returnSubroutine (base : Addr) (s : State) : Handled :=
  let (lo, s) := pop base s
  let (hi, s) := pop base s
  ⟨s, .jumped (word hi lo + 1)⟩

/-- BRK: Halt; nothing is pushed and no vector is read (R97). -/
def halt (s : State) : Handled := ⟨s, .halt⟩

/-- JMP Absolute (R93, R65). -/
def execJmpAbs (w : Addr) : State → Result := perform (operandSize .absolute) (jump (eaAbsolute w))

/-- JMP Indirect, through a one-byte zero-page pointer (R93, R68). -/
def execJmpInd (b1 : Byte) : State → Result :=
  perform (operandSize .indirect) (fun s => jump (eaIndirect b1 s) s)

/-- JSR Absolute (R94, R65). -/
def execJsrAbs (w : Addr) : State → Result :=
  perform (operandSize .absolute) (jumpSubroutine stackBase (operandSize .absolute) (eaAbsolute w))

/-- RTS (R95). -/
def execRts : State → Result := perform (operandSize .implied) (returnSubroutine stackBase)

/-- BRK (R97). -/
def execBrk : State → Result := perform (operandSize .implied) halt

end Sys2Proof.Machine
end

