-- ==== Sys2Proof/Machine/LoadStore.lean ====
section
/-! DEFINITION. Loads and stores (42_load_store.md). The six handlers run with PC past the opcode byte;
below them stands one meaning for each row of the opcode table. -/

namespace Sys2Proof.Machine

/-- LDA: A <- v, SetZN(v), Continue (R81). -/
def loadA (v : Byte) (s : State) : Handled := ⟨(s.setA v).flagZN v, .cont⟩

/-- LDX: X <- v, SetZN(v), Continue (R82). -/
def loadX (v : Byte) (s : State) : Handled := ⟨(s.setX v).flagZN v, .cont⟩

/-- LDY: Y <- v, SetZN(v), Continue (R83). -/
def loadY (v : Byte) (s : State) : Handled := ⟨(s.setY v).flagZN v, .cont⟩

/-- STA: the cell at `addr` <- A, Continue (R84). -/
def storeA (addr : Addr) (s : State) : Handled := ⟨s.busWrite addr s.a, .cont⟩

/-- STX: the cell at `addr` <- X, Continue (R85). -/
def storeX (addr : Addr) (s : State) : Handled := ⟨s.busWrite addr s.x, .cont⟩

/-- STY: the cell at `addr` <- Y, Continue (R86). -/
def storeY (addr : Addr) (s : State) : Handled := ⟨s.busWrite addr s.y, .cont⟩

/-- LDA Immediate: the operand byte is the datum (R81, R61). -/
def execLdaImm (b1 : Byte) : State → Result :=
  perform (operandSize .immediate) (loadA b1)

/-- LDA ZeroPage (R81, R62). -/
def execLdaZp (b1 : Byte) : State → Result :=
  perform (operandSize .zeroPage) (fun s => loadA (s.busRead (eaZeroPage b1)) s)

/-- LDA ZeroPage_X (R81, R63). -/
def execLdaZpX (b1 : Byte) : State → Result :=
  perform (operandSize .zeroPageX) (fun s => loadA (s.busRead (eaZeroPageX b1 s)) s)

/-- LDA Absolute (R81, R65). -/
def execLdaAbs (w : Addr) : State → Result :=
  perform (operandSize .absolute) (fun s => loadA (s.busRead (eaAbsolute w)) s)

/-- LDA Absolute_X (R81, R66). -/
def execLdaAbsX (w : Addr) : State → Result :=
  perform (operandSize .absoluteX) (fun s => loadA (s.busRead (eaAbsoluteX w s)) s)

/-- LDA Absolute_Y (R81, R67). -/
def execLdaAbsY (w : Addr) : State → Result :=
  perform (operandSize .absoluteY) (fun s => loadA (s.busRead (eaAbsoluteY w s)) s)

/-- LDA Indirect_X (R81, R69). -/
def execLdaIndX (b1 : Byte) : State → Result :=
  perform (operandSize .indirectX) (fun s => loadA (s.busRead (eaIndirectX b1 s)) s)

/-- LDA Indirect_Y (R81, R70). -/
def execLdaIndY (b1 : Byte) : State → Result :=
  perform (operandSize .indirectY) (fun s => loadA (s.busRead (eaIndirectY b1 s)) s)

/-- LDX Immediate: the operand byte is the datum (R82, R61). -/
def execLdxImm (b1 : Byte) : State → Result :=
  perform (operandSize .immediate) (loadX b1)

/-- LDX ZeroPage (R82, R62). -/
def execLdxZp (b1 : Byte) : State → Result :=
  perform (operandSize .zeroPage) (fun s => loadX (s.busRead (eaZeroPage b1)) s)

/-- LDX ZeroPage_Y (R82, R64). -/
def execLdxZpY (b1 : Byte) : State → Result :=
  perform (operandSize .zeroPageY) (fun s => loadX (s.busRead (eaZeroPageY b1 s)) s)

/-- LDX Absolute (R82, R65). -/
def execLdxAbs (w : Addr) : State → Result :=
  perform (operandSize .absolute) (fun s => loadX (s.busRead (eaAbsolute w)) s)

/-- LDX Absolute_Y (R82, R67). -/
def execLdxAbsY (w : Addr) : State → Result :=
  perform (operandSize .absoluteY) (fun s => loadX (s.busRead (eaAbsoluteY w s)) s)

/-- LDY Immediate: the operand byte is the datum (R83, R61). -/
def execLdyImm (b1 : Byte) : State → Result :=
  perform (operandSize .immediate) (loadY b1)

/-- LDY ZeroPage (R83, R62). -/
def execLdyZp (b1 : Byte) : State → Result :=
  perform (operandSize .zeroPage) (fun s => loadY (s.busRead (eaZeroPage b1)) s)

/-- LDY ZeroPage_X (R83, R63). -/
def execLdyZpX (b1 : Byte) : State → Result :=
  perform (operandSize .zeroPageX) (fun s => loadY (s.busRead (eaZeroPageX b1 s)) s)

/-- LDY Absolute (R83, R65). -/
def execLdyAbs (w : Addr) : State → Result :=
  perform (operandSize .absolute) (fun s => loadY (s.busRead (eaAbsolute w)) s)

/-- LDY Absolute_X (R83, R66). -/
def execLdyAbsX (w : Addr) : State → Result :=
  perform (operandSize .absoluteX) (fun s => loadY (s.busRead (eaAbsoluteX w s)) s)

/-- STA ZeroPage (R84, R62). -/
def execStaZp (b1 : Byte) : State → Result :=
  perform (operandSize .zeroPage) (fun s => storeA (eaZeroPage b1) s)

/-- STA ZeroPage_X (R84, R63). -/
def execStaZpX (b1 : Byte) : State → Result :=
  perform (operandSize .zeroPageX) (fun s => storeA (eaZeroPageX b1 s) s)

/-- STA Absolute (R84, R65). -/
def execStaAbs (w : Addr) : State → Result :=
  perform (operandSize .absolute) (fun s => storeA (eaAbsolute w) s)

/-- STA Absolute_X (R84, R66). -/
def execStaAbsX (w : Addr) : State → Result :=
  perform (operandSize .absoluteX) (fun s => storeA (eaAbsoluteX w s) s)

/-- STA Absolute_Y (R84, R67). -/
def execStaAbsY (w : Addr) : State → Result :=
  perform (operandSize .absoluteY) (fun s => storeA (eaAbsoluteY w s) s)

/-- STA Indirect_X (R84, R69). -/
def execStaIndX (b1 : Byte) : State → Result :=
  perform (operandSize .indirectX) (fun s => storeA (eaIndirectX b1 s) s)

/-- STA Indirect_Y (R84, R70). -/
def execStaIndY (b1 : Byte) : State → Result :=
  perform (operandSize .indirectY) (fun s => storeA (eaIndirectY b1 s) s)

/-- STX ZeroPage (R85, R62). -/
def execStxZp (b1 : Byte) : State → Result :=
  perform (operandSize .zeroPage) (fun s => storeX (eaZeroPage b1) s)

/-- STX ZeroPage_Y (R85, R64). -/
def execStxZpY (b1 : Byte) : State → Result :=
  perform (operandSize .zeroPageY) (fun s => storeX (eaZeroPageY b1 s) s)

/-- STX Absolute (R85, R65). -/
def execStxAbs (w : Addr) : State → Result :=
  perform (operandSize .absolute) (fun s => storeX (eaAbsolute w) s)

/-- STY ZeroPage (R86, R62). -/
def execStyZp (b1 : Byte) : State → Result :=
  perform (operandSize .zeroPage) (fun s => storeY (eaZeroPage b1) s)

/-- STY ZeroPage_X (R86, R63). -/
def execStyZpX (b1 : Byte) : State → Result :=
  perform (operandSize .zeroPageX) (fun s => storeY (eaZeroPageX b1 s) s)

/-- STY Absolute (R86, R65). -/
def execStyAbs (w : Addr) : State → Result :=
  perform (operandSize .absolute) (fun s => storeY (eaAbsolute w) s)

end Sys2Proof.Machine
end

