-- ==== Sys2Proof/Machine/Transfer.lean ====
section
/-! DEFINITION. Register transfers and increment (43_transfer_increment.md): TAX, TXA, INX, one byte
each, the outcome Continue. -/

namespace Sys2Proof.Machine

/-- TAX: X <- A, SetZN(A) (R87). -/
def transferAX (s : State) : Handled := ⟨(s.setX s.a).flagZN s.a, .cont⟩

/-- TXA: A <- X, SetZN(X) (R88). -/
def transferXA (s : State) : Handled := ⟨(s.setA s.x).flagZN s.x, .cont⟩

/-- INX: X <- X + 1 modulo 256, SetZN of the new X (R89). -/
def incrementX (s : State) : Handled := ⟨(s.setX (s.x + 1)).flagZN (s.x + 1), .cont⟩

/-- TAX (R87). -/
def execTax : State → Result := perform (operandSize .implied) transferAX

/-- TXA (R88). -/
def execTxa : State → Result := perform (operandSize .implied) transferXA

/-- INX (R89). -/
def execInx : State → Result := perform (operandSize .implied) incrementX

end Sys2Proof.Machine
end

