-- ==== Sys2Proof/Machine/Dispatch.lean ====
section
/-! DEFINITION. One arm for each constructor of `Instr`: a direct call of its meaning. -/

namespace Sys2Proof.Machine

def exec (i : Instr) (s : State) : Host.Outcome State Fault Refusal :=
  match i with
  | .brk => Sys2Proof.Machine.execBrk s
  | .jsrAbs w => Sys2Proof.Machine.execJsrAbs w s
  | .jmpAbs w => Sys2Proof.Machine.execJmpAbs w s
  | .rts => Sys2Proof.Machine.execRts s
  | .jmpInd b1 => Sys2Proof.Machine.execJmpInd b1 s
  | .staIndX b1 => Sys2Proof.Machine.execStaIndX b1 s
  | .styZp b1 => Sys2Proof.Machine.execStyZp b1 s
  | .staZp b1 => Sys2Proof.Machine.execStaZp b1 s
  | .stxZp b1 => Sys2Proof.Machine.execStxZp b1 s
  | .txa => Sys2Proof.Machine.execTxa s
  | .styAbs w => Sys2Proof.Machine.execStyAbs w s
  | .staAbs w => Sys2Proof.Machine.execStaAbs w s
  | .stxAbs w => Sys2Proof.Machine.execStxAbs w s
  | .staIndY b1 => Sys2Proof.Machine.execStaIndY b1 s
  | .styZpX b1 => Sys2Proof.Machine.execStyZpX b1 s
  | .staZpX b1 => Sys2Proof.Machine.execStaZpX b1 s
  | .stxZpY b1 => Sys2Proof.Machine.execStxZpY b1 s
  | .staAbsY w => Sys2Proof.Machine.execStaAbsY w s
  | .staAbsX w => Sys2Proof.Machine.execStaAbsX w s
  | .ldyImm b1 => Sys2Proof.Machine.execLdyImm b1 s
  | .ldaIndX b1 => Sys2Proof.Machine.execLdaIndX b1 s
  | .ldxImm b1 => Sys2Proof.Machine.execLdxImm b1 s
  | .ldyZp b1 => Sys2Proof.Machine.execLdyZp b1 s
  | .ldaZp b1 => Sys2Proof.Machine.execLdaZp b1 s
  | .ldxZp b1 => Sys2Proof.Machine.execLdxZp b1 s
  | .ldaImm b1 => Sys2Proof.Machine.execLdaImm b1 s
  | .tax => Sys2Proof.Machine.execTax s
  | .ldyAbs w => Sys2Proof.Machine.execLdyAbs w s
  | .ldaAbs w => Sys2Proof.Machine.execLdaAbs w s
  | .ldxAbs w => Sys2Proof.Machine.execLdxAbs w s
  | .ldaIndY b1 => Sys2Proof.Machine.execLdaIndY b1 s
  | .ldyZpX b1 => Sys2Proof.Machine.execLdyZpX b1 s
  | .ldaZpX b1 => Sys2Proof.Machine.execLdaZpX b1 s
  | .ldxZpY b1 => Sys2Proof.Machine.execLdxZpY b1 s
  | .ldaAbsY w => Sys2Proof.Machine.execLdaAbsY w s
  | .ldyAbsX w => Sys2Proof.Machine.execLdyAbsX w s
  | .ldaAbsX w => Sys2Proof.Machine.execLdaAbsX w s
  | .ldxAbsY w => Sys2Proof.Machine.execLdxAbsY w s
  | .inx => Sys2Proof.Machine.execInx s

end Sys2Proof.Machine
end

