-- ==== Sys2Proof/Machine/Step.lean ====
section
/-! DEFINITION. `Step()` of 41_dispatch.md R75: one whole instruction, enabled only while RUN = Running.
The opcode byte and the two bytes after it are read before the instruction runs, so it uses its bytes as
they were fetched (20_memory.md R43, R44); a byte past the instruction's own is read without effect
(R38). -/

namespace Sys2Proof.Machine

/-- The instruction at PC, if the byte there has an entry in OPTABLE. -/
def State.fetch (s : State) : Option Instr :=
  decodeInstr (s.busRead s.pc) (s.busRead (s.pc + 1)) (s.busRead (s.pc + 2))

/-- One step (R75). In a run state other than Running no step is enabled, and the answer names the run
state found (70_reset_and_hazards.md R126: log 8). -/
def step (s : State) : Host.Outcome State Fault Refusal :=
  match s.run with
  | .powerOn => .fault .stepBeforeReset
  | .halted => .fault .stepWhenHalted
  | .faulted c => .fault (.stepWhenFaulted c)
  | .running =>
    match s.fetch with
    | some i => exec i s
    | none => .next (raiseUnsupportedOpcode (s.busRead s.pc) s)

/-- `s` with the three bytes of an opcode-table word at PC, where `step` fetches, and RUN = Running, in
which alone it fetches (log 11). -/
def State.withFetchWord (s : State) (nbits w : Nat) : State :=
  (((s.busWrite s.pc (tableByte nbits w 0)).busWrite (s.pc + 1) (tableByte nbits w 1)).busWrite (s.pc + 2)
    (tableByte nbits w 2)).setRun .running

end Sys2Proof.Machine
end

