-- ==== Sys2Proof/Machine/Reference.lean ====
section
/-! DEFINITION. `Step()` word for word as 41_dispatch.md R75 writes it, with the two parameters of
00_scope.md R5 as arguments: any opcode table that is well formed by 30_encoding.md R57, and either stack
base. It looks the opcode up in the table, lets the resolver read the operand bytes at PC, and runs the
handler for any mnemonic in any mode. `step` (Machine/Step.lean) decodes first and then runs `exec`; that
the two agree for the default parameters is a statement of Certificates/Slice0/Obligations.lean. -/

namespace Sys2Proof.Machine

/-- The configuration of a core (R5). It is not state: nothing changes it. -/
structure Params where
  stackBase : Addr
  optable : List Row
  deriving DecidableEq, Repr

/-- The default parameters: STACK_BASE = 0x0100 and the 39 rows (R5, R53). -/
def defaultParams : Params := ⟨Sys2Proof.Machine.stackBase, Sys2Proof.optable⟩

/-- `Exec(ins, mode)`, with PC past the opcode byte: the rule of the mnemonic, written for any mode that
has an effective address (R81 to R97). `none` where a resolving instruction is paired with Implied
(60_exceptions.md R102). -/
def execAny (base : Addr) (m : Mnemonic) (mode : Mode) (s : State) : Option Handled :=
  match m with
  | .lda => (ea mode s).map (fun addr => loadA (s.busRead addr) s)
  | .ldx => (ea mode s).map (fun addr => loadX (s.busRead addr) s)
  | .ldy => (ea mode s).map (fun addr => loadY (s.busRead addr) s)
  | .sta => (ea mode s).map (fun addr => storeA addr s)
  | .stx => (ea mode s).map (fun addr => storeX addr s)
  | .sty => (ea mode s).map (fun addr => storeY addr s)
  | .tax => some (transferAX s)
  | .txa => some (transferXA s)
  | .inx => some (incrementX s)
  | .jmp => (ea mode s).map (fun t => jump t s)
  | .jsr => (ea mode s).map (fun t => jumpSubroutine base (operandSize mode) t s)
  | .rts => some (returnSubroutine base s)
  | .brk => some (halt s)

/-- Why a core with the parameters `c` is refused; `none` if R5 and R57 admit them (R102: log 16). -/
def Params.refusal (c : Params) : Option Refusal :=
  match tableDefect c.optable with
  | some d => some (.illFormedTable d)
  | none => if Config.stackBaseAdmitted c.stackBase then none else some .stackBaseNotAdmitted

/-- `Step()` of R75 under the parameters `c`. Parameters R5 and R57 do not admit are refused before
anything runs (R102). -/
def stepWith (c : Params) (s : State) : Result :=
  match c.refusal with
  | some r => .refused r
  | none =>
    match s.run with
    | .powerOn => .fault .stepBeforeReset
    | .halted => .fault .stepWhenHalted
    | .faulted cond => .fault (.stepWhenFaulted cond)
    | .running =>
      match lookup c.optable (s.busRead s.pc) with
      | none => .next (raiseUnsupportedOpcode (s.busRead s.pc) s)
      | some (m, mode) =>
        match execAny c.stackBase m mode s.pastOpcode with
        | some h => .next (finish (operandSize mode) h)
        | none => .fault (.invalidAddressingMode ⟨s.busRead s.pc, m, mode⟩)

end Sys2Proof.Machine
end

