-- ==== Sys2Proof/Machine/Trace.lean ====
section
/-! DEFINITION. The bus transactions of one step, in the order of 20_memory.md R44. The trace is a
function of the state a step starts from and not state itself: nothing can observe the order (log 15). -/

namespace Sys2Proof.Machine

/-- A transaction on the bus, with the byte it moves (R31, R38). -/
inductive BusEvent where
  | read (addr : Addr) (v : Byte)
  | write (addr : Addr) (v : Byte)
  deriving DecidableEq, Repr

def BusEvent.isWrite : BusEvent → Bool
  | .read _ _ => false
  | .write _ _ => true

/-- The read of `addr` in the state `s`. -/
def readEvent (s : State) (addr : Addr) : BusEvent := .read addr (s.busRead addr)

/-- The two reads of a zero-page pointer, low byte first (R44). -/
def pointerEvents (p : Byte) (s : State) : List BusEvent := [readEvent s (zext p), readEvent s (zext (p + 1))]

/-- The resolver's reads, with PC at the first operand byte: operand bytes, then pointer bytes (R44 steps 2
and 3). With Immediate the resolver reads nothing; the operand byte is the load's data read (R61). -/
def resolverEvents (mode : Mode) (s : State) : List BusEvent :=
  match mode with
  | .implied | .immediate => []
  | .zeroPage | .zeroPageX | .zeroPageY => [readEvent s s.pc]
  | .absolute | .absoluteX | .absoluteY => [readEvent s s.pc, readEvent s (s.pc + 1)]
  | .indirect | .indirectY => readEvent s s.pc :: pointerEvents (s.busRead s.pc) s
  | .indirectX => readEvent s s.pc :: pointerEvents (s.busRead s.pc + s.x) s

/-- The accesses of the instruction itself (R44 step 4), with PC at the first operand byte. Where the mode has
no effective address there is no access, and no address stands in for one (40_addressing_modes.md R71). -/
def dataEvents (base : Addr) (m : Mnemonic) (mode : Mode) (s : State) : List BusEvent :=
  match m with
  | .lda | .ldx | .ldy => (ea mode s).toList.map (readEvent s)
  | .sta => (ea mode s).toList.map (fun addr => .write addr s.a)
  | .stx => (ea mode s).toList.map (fun addr => .write addr s.x)
  | .sty => (ea mode s).toList.map (fun addr => .write addr s.y)
  | .jsr =>
    let ret := s.pc + operandSize mode - 1
    [.write (stackAddr base s.sp) (hiByte ret), .write (stackAddr base (s.sp - 1)) (loByte ret)]
  | .rts => [readEvent s (stackAddr base (s.sp + 1)), readEvent s (stackAddr base (s.sp + 1 + 1))]
  | .tax | .txa | .inx | .jmp | .brk => []

/-- The transactions of the step that is enabled in `s`; none where no step is, and none on a core whose
parameters are refused, since nothing runs there (60_exceptions.md R102). -/
def busTrace (c : Params) (s : State) : List BusEvent :=
  match c.refusal with
  | some _ => []
  | none =>
    match s.run with
    | .running =>
      readEvent s s.pc ::
        match lookup c.optable (s.busRead s.pc) with
        | none => []
        | some (m, mode) => resolverEvents mode s.pastOpcode ++ dataEvents c.stackBase m mode s.pastOpcode
    | .powerOn | .halted | .faulted _ => []

/-- The effect on the state of a transaction: a write stores its byte, a read changes nothing (R31). -/
def BusEvent.apply (s : State) : BusEvent → State
  | .read _ _ => s
  | .write addr v => s.busWrite addr v

end Sys2Proof.Machine
end

