-- ==== Sys2Proof/Machine/HostOps.lean ====
section
/-! DEFINITION. What the host can do to the core (70_reset_and_hazards.md R120 to R128): construct, load,
reset, step, run, inspect. Each is an operation between two steps (R127). `reset` is `resetCore` of
Machine/Ops.lean. -/

namespace Sys2Proof.Machine

/-- The values the registers happen to hold between construction and the first reset. The spec gives them
none (R22, R121), so they are an argument of `construct` and every claim holds for all of them (log 9). -/
structure PowerOnRegs where
  a : Byte
  x : Byte
  y : Byte
  sp : Byte
  p : Byte
  pc : Addr
  deriving DecidableEq, Repr

/-- `construct`: memory all zero, RUN = PowerOn, registers unspecified (R121). -/
def construct (u : PowerOnRegs) : State where
  a := u.a
  x := u.x
  y := u.y
  sp := u.sp
  p := u.p
  pc := u.pc
  run := .powerOn
  mem := []

/-- What `load` reports: the state with the image in place, or ProgramTooLarge with the image's length,
and then nothing has been written (R103, R122). -/
inductive LoadResult where
  | loaded (s : State)
  | programTooLarge (n : Nat)
  deriving DecidableEq, Repr

/-- Copy the image to ascending addresses from `addr` (R122). -/
def writeImage : List Byte → Addr → State → State
  | [], _, s => s
  | b :: bs, addr, s => writeImage bs (addr + 1) (s.busWrite addr b)

/-- `load(bytes)`: the image at LOAD_ORIGIN, then the reset vector, which is written last (R122). -/
def load (image : List Byte) (s : State) : LoadResult :=
  if imageWf image then
    .loaded ((writeImage image Config.loadOrigin s).write16 Config.resetVector Config.loadOrigin)
  else .programTooLarge image.length

/-- `step` as the host requests it: one `Step()` where one is enabled; in a stopped core nothing changes,
and the run state found is reported (R126). -/
def stepRequest (s : State) : State × RunState :=
  match step s with
  | .next t => (t, t.run)
  | .fault _ => (s, s.run)
  | .refused _ => (s, s.run)

/-- The state after `k` step requests, which is that after the first `k` iterations of `run` (R125, R126).
`k` is a number of requests and no limit of the core's: `run` itself has none (R79: log 14). -/
def runFor : Nat → State → State
  | 0, s => s
  | k + 1, s => runFor k (stepRequest s).1

/-- The registers the host may read (R128). -/
structure Registers where
  a : Byte
  x : Byte
  y : Byte
  sp : Byte
  p : Byte
  pc : Addr
  deriving DecidableEq, Repr

/-- Inspection of the registers; before the first reset they hold no specified value and the read is
refused (R128, R22). -/
def inspectRegisters (s : State) : Option Registers :=
  match s.run with
  | .powerOn => none
  | _ => some ⟨s.a, s.x, s.y, s.sp, s.p, s.pc⟩

/-- Inspection of a memory cell (R128). -/
def inspectMemory (s : State) (addr : Addr) : Byte := s.busRead addr

end Sys2Proof.Machine
end

