-- ==== Sys2Proof/Safety.lean ====
section
/-! DEFINITION. The terms in which claims about whole runs are made: which states the host's operations
and the core's steps reach, and how a run ends. -/

namespace Sys2Proof.Machine

/-- The states a core can be in, by the moves of 70_reset_and_hazards.md R120: construction, then any
order of loads, resets and steps; nothing else acts on the core (R127: log 19). -/
inductive Reachable : State → Prop where
  | construct (u : PowerOnRegs) : Reachable (construct u)
  | load {s t : State} (image : List Byte) : Reachable s → load image s = .loaded t → Reachable t
  | reset {s : State} : Reachable s → Reachable (resetCore s)
  | step {s t : State} : Reachable s → step s = .next t → Reachable t

/-- `run` started in `s` returns to the host with the core in `t`: some number of steps leads to `t`, and
no step is enabled there (R125). A run that never stops has no such `t` (R79). -/
def RunReturns (s t : State) : Prop := ∃ k, runFor k s = t ∧ t.run ≠ .running

/-- A run that ended at BRK; a run that ended in Faulted has not (60_exceptions.md R101). -/
def EndsNormally (s : State) : Prop := ∃ t, RunReturns s t ∧ t.run = .halted

/-- The values P can hold from the first reset on (10_state.md R17: log 18). -/
def statusLegal (p : Byte) : Bool := p == 0x00 || p == 0x02 || p == 0x80

/-- What holds of a core from its construction on: Mem is in canonical form; once it has been reset, P is one of
0x00, 0x02, 0x80 (R17); and a Faulted core has PC one past the recorded address, and the recorded byte has
no table entry (60_exceptions.md R101). -/
def Legal (s : State) : Prop :=
  s.mem.wf = true ∧ (s.run ≠ .powerOn → statusLegal s.p = true) ∧
    ∀ op loc, s.run = .faulted (.unsupportedOpcode op loc) → s.pc = loc + 1 ∧ lookup optable op = none

/-- What every step keeps: Mem is in canonical form, and P is one of 0x00, 0x02, 0x80 (R17). -/
def Inv (s : State) : Prop := s.mem.wf = true ∧ statusLegal s.p = true

end Sys2Proof.Machine
end

