-- ==== Sys2Proof/Certificates/Slice0/Obligations.lean ====
section
/-! DEFINITION. The statements about the core, for the provers. Each docstring names the rules of spec/ the
statement formalises; where a clause rests on a decision or an inference the spec marks as its own, the
docstring says so and names the log entry. -/

open Sys2Proof Sys2Proof.Machine

namespace Sys2Proof.Claims

/-- The instruction has the encoding its rule lists, and running it completes in the state `t`. -/
def Runs (op : Byte) (mode : Mode) (i : Instr) (s t : State) : Prop :=
  i.opcode = op ∧ i.mode = mode ∧ exec i s = .next t

/-- The state after a load of `v` into A by an instruction of `len` bytes: nothing else changes. -/
def loadedA (v : Byte) (len : Addr) (s : State) : State := { s with a := v, p := setZN s.p v, pc := s.pc + len }

/-- The same for X. -/
def loadedX (v : Byte) (len : Addr) (s : State) : State := { s with x := v, p := setZN s.p v, pc := s.pc + len }

/-- The same for Y. -/
def loadedY (v : Byte) (len : Addr) (s : State) : State := { s with y := v, p := setZN s.p v, pc := s.pc + len }

/-- The instruction has the encoding its rule lists, and running it completes with `v` in the cell `addr`,
every other cell as before, PC past its `len` bytes, and no register, flag or run state changed. -/
def Stores (op : Byte) (mode : Mode) (i : Instr) (addr : Addr) (v : Byte) (len : Addr) (s : State) : Prop :=
  i.opcode = op ∧ i.mode = mode ∧
    ∃ t, exec i s = .next t ∧ t.busRead addr = v ∧ (∀ c, c ≠ addr → t.busRead c = s.busRead c) ∧
      t = { s with pc := s.pc + len, mem := t.mem }

/-- The instructions that end with SetZN (10_state.md R18). -/
def setsFlags : List Mnemonic := [.lda, .ldx, .ldy, .tax, .txa, .inx]

/-- The value such an instruction wrote to its destination register, read from the state after it. -/
def produced (m : Mnemonic) (t : State) : Byte :=
  match m with
  | .lda | .txa => t.a
  | .ldx | .tax | .inx => t.x
  | .ldy => t.y
  | .sta | .stx | .sty | .jmp | .jsr | .rts | .brk => 0

/-- The cells an instruction stores to, by the functions its meaning uses for them (R84 to R86, R94). -/
def storedCells (i : Instr) (s : State) : List Addr :=
  match i with
  | .staZp b1 | .stxZp b1 | .styZp b1 => [eaZeroPage b1]
  | .staZpX b1 | .styZpX b1 => [eaZeroPageX b1 s]
  | .stxZpY b1 => [eaZeroPageY b1 s]
  | .staAbs w | .stxAbs w | .styAbs w => [eaAbsolute w]
  | .staAbsX w => [eaAbsoluteX w s]
  | .staAbsY w => [eaAbsoluteY w s]
  | .staIndX b1 => [eaIndirectX b1 s]
  | .staIndY b1 => [eaIndirectY b1 s]
  | .jsrAbs _ => [stackAddr stackBase s.sp, stackAddr stackBase (s.sp - 1)]
  | .ldaImm _ | .ldaZp _ | .ldaZpX _ | .ldaAbs _ | .ldaAbsX _ | .ldaAbsY _ | .ldaIndX _ | .ldaIndY _ => []
  | .ldxImm _ | .ldxZp _ | .ldxZpY _ | .ldxAbs _ | .ldxAbsY _ => []
  | .ldyImm _ | .ldyZp _ | .ldyZpX _ | .ldyAbs _ | .ldyAbsX _ => []
  | .tax | .txa | .inx | .jmpAbs _ | .jmpInd _ | .rts | .brk => []

/-- The 39 opcode bytes of 30_encoding.md R53. -/
def supportedOpcodes : List Byte :=
  [0x00, 0x20, 0x4C, 0x60, 0x6C, 0x81, 0x84, 0x85, 0x86, 0x8A, 0x8C, 0x8D, 0x8E] ++
  [0x91, 0x94, 0x95, 0x96, 0x99, 0x9D, 0xA0, 0xA1, 0xA2, 0xA4, 0xA5, 0xA6, 0xA9] ++
  [0xAA, 0xAC, 0xAD, 0xAE, 0xB1, 0xB4, 0xB5, 0xB6, 0xB9, 0xBC, 0xBD, 0xBE, 0xE8]

/-- The table `t` has the defect `d`, of the entry `d` names. -/
def hasDefect (t : List Row) : TableDefect → Prop
  | .invalidAddressingMode r => r ∈ t ∧ r.mnemonic.resolves = true ∧ r.mode = .implied
  | .operandUnused r => r ∈ t ∧ r.mnemonic.resolves = false ∧ r.mode ≠ .implied
  | .opcodeListedTwice r => ∃ before after r', t = before ++ r :: after ∧ r' ∈ after ∧ r'.opcode = r.opcode

/-- The transactions `es` are reads followed by writes; each read returns what its cell held in `s`; and the
writes, replayed in order from `s`, leave the memory of `t`. -/
def TraceAccounts (es : List BusEvent) (s t : State) : Prop :=
  (∃ rs ws, es = rs ++ ws ∧ (∀ e ∈ rs, e.isWrite = false) ∧ ∀ e ∈ ws, e.isWrite = true) ∧
  (∀ addr v, BusEvent.read addr v ∈ es → v = s.busRead addr) ∧
  (es.foldl BusEvent.apply s).mem = t.mem

/-- The step from `s` runs an instruction with one of these mnemonics. -/
def opcodeIn (ms : List Mnemonic) (s : State) : Prop :=
  ∃ m mode, lookup optable (s.busRead s.pc) = some (m, mode) ∧ m ∈ ms

/-- The two cells of the reset vector. -/
def inVector (c : Addr) : Prop := c = 0xFFFC ∨ c = 0xFFFD

end Sys2Proof.Claims

open Sys2Proof.Claims

/-! ## Encoding -/

/-- Every instruction is well formed, and decoding its bytes, whatever follows them, gives it back with
every operand at its value and exactly the bytes after it left (R50 to R52, R56). -/
def Obligations.DecodeOfEncode : Prop :=
  ∀ (i : Instr) (rest : List Byte), i.wf = true ∧ decodeBytes (encode i ++ rest) = .accepted i rest

/-- Whatever bytes decode to an instruction are that instruction's encoding followed by the rest: no two
encodings of one instruction, and no bit dropped (R50, R54, R56). -/
def Obligations.EncodeOfDecode : Prop :=
  ∀ (bytes : List Byte) (i : Instr) (rest : List Byte), decodeBytes bytes = .accepted i rest → bytes = encode i ++ rest

/-- The decoder is the opcode table: an opcode byte without an entry decodes to nothing, and one with an
entry decodes to an instruction of that mnemonic, mode and opcode whose operand bytes are the first
OperandSize(mode) of the bytes after it (R53, R54, R72; the table is the spec's decision D1: log 1). -/
def Obligations.DecoderFollowsOpcodeTable : Prop :=
  ∀ op b1 b2 : Byte,
    match lookup optable op with
    | none => decodeInstr op b1 b2 = none
    | some (m, mode) =>
      ∃ i, decodeInstr op b1 b2 = some i ∧ i.mnemonic = m ∧ i.mode = mode ∧ i.opcode = op ∧
        i.operandBytes = [b1, b2].take (operandSize mode).toNat

/-- One word of each family, put together from R53 and the operand layout of R51, decodes to its
instruction; 0xEA, 0x02 and 0xFF decode to none (the opcode bytes are the spec's decision D1: log 1). -/
def Obligations.SampleWordsDecode : Prop :=
  decodeTableWord 8 0b00000000 = some .brk ∧
  decodeTableWord 24 0b00010010_00110100_00100000 = some (.jsrAbs 0x1234) ∧
  decodeTableWord 24 0b00010010_00110100_01001100 = some (.jmpAbs 0x1234) ∧
  decodeTableWord 16 0b11111111_01101100 = some (.jmpInd 0xFF) ∧
  decodeTableWord 8 0b01100000 = some .rts ∧
  decodeTableWord 16 0b10000001_10010001 = some (.staIndY 0x81) ∧
  decodeTableWord 24 0b10000000_00000001_10001110 = some (.stxAbs 0x8001) ∧
  decodeTableWord 16 0b11110000_10010100 = some (.styZpX 0xF0) ∧
  decodeTableWord 16 0b10000000_10101001 = some (.ldaImm 0x80) ∧
  decodeTableWord 24 0b00000010_00000001_10111110 = some (.ldxAbsY 0x0201) ∧
  decodeTableWord 24 0b00000010_00000001_10111100 = some (.ldyAbsX 0x0201) ∧
  decodeTableWord 8 0b10101010 = some .tax ∧
  decodeTableWord 8 0b10001010 = some .txa ∧
  decodeTableWord 8 0b11101000 = some .inx ∧
  decodeTableWord 8 0b11101010 = none ∧ decodeTableWord 8 0b00000010 = none ∧ decodeTableWord 8 0b11111111 = none

/-- Exactly the 39 opcode bytes of R53 begin an instruction, 217 do not, and the default table meets R57
with no byte twice (the byte values are the spec's decision D1: log 1). -/
def Obligations.SupportedOpcodesExact : Prop :=
  (∀ op : Byte, (form op).isSome = supportedOpcodes.contains op) ∧ supportedOpcodes.length = 39 ∧
    ((List.range 256).filter (fun n => (form (BitVec.ofNat 8 n)).isNone)).length = 217 ∧ tableWf optable = true

/-- R72: the number of operand bytes after the opcode byte, by mode, which is also what the dispatcher adds to
PC after an instruction that neither jumps nor halts (BRK's PC is stated by BrkResult). -/
def Obligations.OperandSizes : Prop :=
  (∀ mode : Mode, operandSize mode =
    if mode = .implied then 0
    else if mode = .absolute ∨ mode = .absoluteX ∨ mode = .absoluteY then 2
    else 1) ∧
  (∀ i : Instr, (encode i).length = 1 + (operandSize i.mode).toNat) ∧
  ∀ (i : Instr) (s t : State), exec i s = .next t → i.mnemonic ∉ [.jmp, .jsr, .rts, .brk] →
    t.pc = s.pc + 1 + operandSize i.mode

/-! ## The step -/

/-- R75: when the core is Running and the bytes at PC decode to the instruction `i`, the step is `i` run on
the state as it is; the meanings themselves move PC past the opcode byte and past the operand. -/
def Obligations.StepRunsDecodedInstruction : Prop :=
  ∀ (s : State) (i : Instr) (rest : List Byte), s.run = .running →
    decodeBytes [s.busRead s.pc, s.busRead (s.pc + 1), s.busRead (s.pc + 2)] = .accepted i rest →
    step s = exec i s

/-- R101, R77: a byte without an entry takes UnsupportedOpcode: RUN records the byte and its address, PC is
past it, nothing else changes (what is recorded, and PC, are the spec's decision D7: log 7). -/
def Obligations.UnsupportedOpcodeFaultsTheCore : Prop :=
  ∀ s : State, s.run = .running → lookup optable (s.busRead s.pc) = none →
    step s = .next { s with pc := s.pc + 1, run := .faulted (.unsupportedOpcode (s.busRead s.pc) s.pc) }

/-- A step is enabled in Running and in no other run state, and once enabled it completes: no instruction
stops, traps or waits, whatever the operands (R75, R37, R105, R133). -/
def Obligations.StepCompletesExactlyWhenRunning : Prop := ∀ s : State, (∃ t, step s = .next t) ↔ s.run = .running

/-- In a core that is not Running a step request changes nothing and reports the run state, and so does any
number of requests (R126; the spec's decision D8: log 8). -/
def Obligations.StoppedCoreStaysAsItIs : Prop :=
  ∀ s : State, s.run ≠ .running → stepRequest s = (s, s.run) ∧ ∀ k, runFor k s = s

/-- R19: the run states a step leads to. It ends Halted exactly by BRK and Faulted exactly by an unsupported
byte, in both cases with PC one past that byte and all else unchanged; every other step stays Running
(Faulted and PC in the stopped states are the spec's decision D7 and inference: log 7). -/
def Obligations.RunStateTransitions : Prop :=
  ∀ s t : State, step s = .next t →
    (s.busRead s.pc = 0x00 ∧ t = { s with pc := s.pc + 1, run := .halted }) ∨
    (lookup optable (s.busRead s.pc) = none ∧
      t = { s with pc := s.pc + 1, run := .faulted (.unsupportedOpcode (s.busRead s.pc) s.pc) }) ∨
    (s.busRead s.pc ≠ 0x00 ∧ lookup optable (s.busRead s.pc) ≠ none ∧ t.run = .running)

/-- The step that decodes and dispatches is `Step()` as R75 writes it, with the resolver reading
the operands at PC and the handlers written for any mode, under the default parameters (R5). -/
def Obligations.StepIsReferenceStep : Prop := ∀ s : State, step s = stepWith defaultParams s

/-- Parameters R5 and R57 do not admit are refused before anything runs, the refusal of a table names a defect
the table has and its entry, and no step ever meets InvalidAddressingMode (R57, R100, R102; the spec's
decision D19: log 16). -/
def Obligations.IllFormedParametersAreRefused : Prop :=
  ∀ (c : Params) (s : State),
    (tableWf c.optable = false → ∃ d, stepWith c s = .refused (.illFormedTable d) ∧ hasDefect c.optable d) ∧
    (tableWf c.optable = true → Config.stackBaseAdmitted c.stackBase = false → stepWith c s = .refused .stackBaseNotAdmitted) ∧
    ∀ row, stepWith c s ≠ .fault (.invalidAddressingMode row)

/-- R76: each mnemonic has its one outcome, in any mode; a handler with the outcome Continue leaves PC alone
(R78); the outcome decides what the dispatcher does to PC and RUN; and it is with that outcome, and
OperandSize of the opcode's mode, that the step of R75 ends, under every admitted configuration. -/
def Obligations.OutcomeOfEachMnemonic : Prop :=
  (∀ (base : Addr) (m : Mnemonic) (mode : Mode) (s : State) (h : Handled), execAny base m mode s = some h →
    (m ∈ [.lda, .ldx, .ldy, .sta, .stx, .sty, .tax, .txa, .inx] → h.flow = .cont ∧ h.st.pc = s.pc) ∧
    (m ∈ [.jmp, .jsr, .rts] → ∃ t, h.flow = .jumped t) ∧
    (m = .brk → h.flow = .halt)) ∧
  (∀ (mode : Mode) (t : Addr) (s : State),
    finish (operandSize mode) ⟨s, .cont⟩ = { s with pc := s.pc + operandSize mode } ∧
      finish (operandSize mode) ⟨s, .jumped t⟩ = { s with pc := t } ∧
      finish (operandSize mode) ⟨s, .halt⟩ = { s with run := .halted }) ∧
  ∀ (c : Params) (m : Mnemonic) (mode : Mode) (s : State) (h : Handled),
    tableWf c.optable = true → Config.stackBaseAdmitted c.stackBase = true → s.run = .running →
    lookup c.optable (s.busRead s.pc) = some (m, mode) → execAny c.stackBase m mode s.pastOpcode = some h →
    stepWith c s = .next (finish (operandSize mode) h)

/-- A word placed by `withFetchWord` is what the next step runs, from any state (the model's own operation:
log 11). -/
def Obligations.PlacedWordIsRunNext : Prop :=
  ∀ (s : State) (nbits w : Nat) (i : Instr), decodeTableWord nbits w = some i →
    step (s.withFetchWord nbits w) = exec i (s.withFetchWord nbits w)

/-! ## Addressing modes -/

/-- R61 to R67 and R69: the effective addresses, with PC at the first operand byte. The zero-page modes
never leave the zero page, and the resolver never answers for Implied. -/
def Obligations.EffectiveAddresses : Prop :=
  ∀ s : State,
    ea .immediate s = some s.pc ∧
    ea .zeroPage s = some (zext (s.busRead s.pc)) ∧
    ea .zeroPageX s = some (zext (s.busRead s.pc + s.x)) ∧
    ea .zeroPageY s = some (zext (s.busRead s.pc + s.y)) ∧
    ea .absolute s = some (word (s.busRead (s.pc + 1)) (s.busRead s.pc)) ∧
    ea .absoluteX s = some (word (s.busRead (s.pc + 1)) (s.busRead s.pc) + zext s.x) ∧
    ea .absoluteY s = some (word (s.busRead (s.pc + 1)) (s.busRead s.pc) + zext s.y) ∧
    ea .indirectX s = some (word (s.busRead (zext (s.busRead s.pc + s.x + 1))) (s.busRead (zext (s.busRead s.pc + s.x)))) ∧
    (∀ mode addr, mode ∈ [.zeroPage, .zeroPageX, .zeroPageY] → ea mode s = some addr → addr.toNat < 256) ∧
    ∀ mode, ea mode s = none ↔ mode = .implied

/-- R68 and R70: Indirect and Indirect_Y go through a zero-page pointer whose second byte wraps to the start
of the zero page; Y is added modulo 65536 (one operand byte for Indirect, and the wrap in these two modes,
are the spec's decisions D5 and D6: logs 5 and 6). -/
def Obligations.PointerEffectiveAddresses : Prop :=
  ∀ s : State,
    ea .indirect s = some (word (s.busRead (zext (s.busRead s.pc + 1))) (s.busRead (zext (s.busRead s.pc)))) ∧
    ea .indirectY s =
      some (word (s.busRead (zext (s.busRead s.pc + 1))) (s.busRead (zext (s.busRead s.pc))) + zext s.y) ∧
    (s.busRead s.pc = 0xFF → ea .indirect s = some (word (s.busRead 0x0000) (s.busRead 0x00FF)))

/-! ## Results of the instructions -/

/-- R81: LDA in each of its eight modes: the byte at the effective address (with Immediate, the operand
byte) is in A, SetZN has it, PC is past the instruction, nothing else changes. Here and in the results below
the opcode bytes are the spec's decision D1 (log 1), and where an Indirect or Indirect_Y pointer wraps is its
decisions D5 and D6 (logs 5 and 6). -/
def Obligations.LdaResult : Prop :=
  ∀ (s : State) (b1 : Byte) (w : Addr),
    Runs 0xA9 .immediate (.ldaImm b1) s (loadedA b1 2 s) ∧
    Runs 0xA5 .zeroPage (.ldaZp b1) s (loadedA (s.busRead (eaZeroPage b1)) 2 s) ∧
    Runs 0xB5 .zeroPageX (.ldaZpX b1) s (loadedA (s.busRead (eaZeroPageX b1 s)) 2 s) ∧
    Runs 0xAD .absolute (.ldaAbs w) s (loadedA (s.busRead (eaAbsolute w)) 3 s) ∧
    Runs 0xBD .absoluteX (.ldaAbsX w) s (loadedA (s.busRead (eaAbsoluteX w s)) 3 s) ∧
    Runs 0xB9 .absoluteY (.ldaAbsY w) s (loadedA (s.busRead (eaAbsoluteY w s)) 3 s) ∧
    Runs 0xA1 .indirectX (.ldaIndX b1) s (loadedA (s.busRead (eaIndirectX b1 s)) 2 s) ∧
    Runs 0xB1 .indirectY (.ldaIndY b1) s (loadedA (s.busRead (eaIndirectY b1 s)) 2 s)

/-- R82: LDX in each of its five modes. -/
def Obligations.LdxResult : Prop :=
  ∀ (s : State) (b1 : Byte) (w : Addr),
    Runs 0xA2 .immediate (.ldxImm b1) s (loadedX b1 2 s) ∧
    Runs 0xA6 .zeroPage (.ldxZp b1) s (loadedX (s.busRead (eaZeroPage b1)) 2 s) ∧
    Runs 0xB6 .zeroPageY (.ldxZpY b1) s (loadedX (s.busRead (eaZeroPageY b1 s)) 2 s) ∧
    Runs 0xAE .absolute (.ldxAbs w) s (loadedX (s.busRead (eaAbsolute w)) 3 s) ∧
    Runs 0xBE .absoluteY (.ldxAbsY w) s (loadedX (s.busRead (eaAbsoluteY w s)) 3 s)

/-- R83: LDY in each of its five modes. -/
def Obligations.LdyResult : Prop :=
  ∀ (s : State) (b1 : Byte) (w : Addr),
    Runs 0xA0 .immediate (.ldyImm b1) s (loadedY b1 2 s) ∧
    Runs 0xA4 .zeroPage (.ldyZp b1) s (loadedY (s.busRead (eaZeroPage b1)) 2 s) ∧
    Runs 0xB4 .zeroPageX (.ldyZpX b1) s (loadedY (s.busRead (eaZeroPageX b1 s)) 2 s) ∧
    Runs 0xAC .absolute (.ldyAbs w) s (loadedY (s.busRead (eaAbsolute w)) 3 s) ∧
    Runs 0xBC .absoluteX (.ldyAbsX w) s (loadedY (s.busRead (eaAbsoluteX w s)) 3 s)

/-- R84: STA in each of its seven modes; the effective address is that of the state before the write. -/
def Obligations.StaResult : Prop :=
  ∀ (s : State) (b1 : Byte) (w : Addr),
    Stores 0x85 .zeroPage (.staZp b1) (eaZeroPage b1) s.a 2 s ∧
    Stores 0x95 .zeroPageX (.staZpX b1) (eaZeroPageX b1 s) s.a 2 s ∧
    Stores 0x8D .absolute (.staAbs w) (eaAbsolute w) s.a 3 s ∧
    Stores 0x9D .absoluteX (.staAbsX w) (eaAbsoluteX w s) s.a 3 s ∧
    Stores 0x99 .absoluteY (.staAbsY w) (eaAbsoluteY w s) s.a 3 s ∧
    Stores 0x81 .indirectX (.staIndX b1) (eaIndirectX b1 s) s.a 2 s ∧
    Stores 0x91 .indirectY (.staIndY b1) (eaIndirectY b1 s) s.a 2 s

/-- R85: STX in each of its three modes. -/
def Obligations.StxResult : Prop :=
  ∀ (s : State) (b1 : Byte) (w : Addr),
    Stores 0x86 .zeroPage (.stxZp b1) (eaZeroPage b1) s.x 2 s ∧
    Stores 0x96 .zeroPageY (.stxZpY b1) (eaZeroPageY b1 s) s.x 2 s ∧
    Stores 0x8E .absolute (.stxAbs w) (eaAbsolute w) s.x 3 s

/-- R86: STY in each of its three modes. -/
def Obligations.StyResult : Prop :=
  ∀ (s : State) (b1 : Byte) (w : Addr),
    Stores 0x84 .zeroPage (.styZp b1) (eaZeroPage b1) s.y 2 s ∧
    Stores 0x94 .zeroPageX (.styZpX b1) (eaZeroPageX b1 s) s.y 2 s ∧
    Stores 0x8C .absolute (.styAbs w) (eaAbsolute w) s.y 3 s

/-- R87, R88, R89: TAX, TXA and INX complete with the transferred or incremented value, its flags, PC past
the one byte, and nothing else changed. -/
def Obligations.TransferAndIncrementResult : Prop :=
  ∀ s : State,
    Runs 0xAA .implied .tax s (loadedX s.a 1 s) ∧ Runs 0x8A .implied .txa s (loadedA s.x 1 s) ∧
      Runs 0xE8 .implied .inx s (loadedX (s.x + 1) 1 s)

/-- R93: JMP completes with PC at the effective address and nothing else changed. -/
def Obligations.JmpResult : Prop :=
  ∀ (s : State) (b1 : Byte) (w : Addr),
    Runs 0x4C .absolute (.jmpAbs w) s { s with pc := eaAbsolute w } ∧
    Runs 0x6C .indirect (.jmpInd b1) s { s with pc := eaIndirect b1 s }

/-- R94: JSR pushes the address of its last byte, high byte first, lowers SP by 2 modulo 256 and jumps; no
other cell, register or flag changes (the stack base, the steps of a push and the byte order on the stack are
the spec's decisions D2, D3, D4: logs 2, 3, 4). -/
def Obligations.JsrResult : Prop :=
  ∀ (s : State) (w : Addr),
    Instr.opcode (.jsrAbs w) = 0x20 ∧ Instr.mode (.jsrAbs w) = .absolute ∧
    ∃ t, exec (.jsrAbs w) s = .next t ∧
      t.busRead (stackAddr stackBase s.sp) = hiByte (s.pc + 2) ∧
      t.busRead (stackAddr stackBase (s.sp - 1)) = loByte (s.pc + 2) ∧
      (∀ c, c ≠ stackAddr stackBase s.sp → c ≠ stackAddr stackBase (s.sp - 1) → t.busRead c = s.busRead c) ∧
      t = { s with pc := w, sp := s.sp - 2, mem := t.mem }

/-- R95: RTS pops the low byte, then the high byte, and continues after the popped address; memory and every
other register stay (stack base, pop steps and byte order as logs 2, 3, 4). -/
def Obligations.RtsResult : Prop :=
  ∀ s : State,
    Runs 0x60 .implied .rts s
      { s with
        sp := s.sp + 2
        pc := word (s.busRead (stackAddr stackBase (s.sp + 2))) (s.busRead (stackAddr stackBase (s.sp + 1))) + 1 }

/-- R97: BRK halts, with PC one past it, and nothing else: no push, no flag, no vector (that PC is one past
is the spec's inference: log 7). -/
def Obligations.BrkResult : Prop :=
  ∀ s : State, Runs 0x00 .implied .brk s { s with pc := s.pc + 1, run := .halted }

/-- R43, R94: a JSR jumps to the operand as it was fetched, even where its two pushes land on the operand
bytes (the spec's inference and decision D16: log 12). -/
def Obligations.JsrUsesOperandAsFetched : Prop :=
  ∀ s : State, s.run = .running → s.busRead s.pc = 0x20 →
    ∃ t, step s = .next t ∧ t.pc = word (s.busRead (s.pc + 2)) (s.busRead (s.pc + 1))

/-! ## Flags and frames -/

/-- R18: SetZN writes Z and N from the value and keeps the six other bits; the six register-producing
instructions end with it, on what they wrote, and no other instruction changes P. -/
def Obligations.FlagRule : Prop :=
  (∀ p v : Byte, zFlag (setZN p v) = (v == 0) ∧ nFlag (setZN p v) = v.getLsbD 7 ∧
    ∀ k, k ≠ 1 → k ≠ 7 → (setZN p v).getLsbD k = p.getLsbD k) ∧
  ∀ (i : Instr) (s t : State), exec i s = .next t →
    (i.mnemonic ∈ setsFlags → t.p = setZN s.p (produced i.mnemonic t)) ∧ (i.mnemonic ∉ setsFlags → t.p = s.p)

/-- R80: an instruction changes only what its rule names. A, X, Y, SP, P (of it only bits 1 and 7) and RUN
change only by the instructions named here; every byte of memory outside the cells the instruction stores to
reads as before. PC may change. -/
def Obligations.InstructionFrame : Prop :=
  ∀ (i : Instr) (s t : State), exec i s = .next t →
    (i.mnemonic ∉ [.lda, .txa] → t.a = s.a) ∧
    (i.mnemonic ∉ [.ldx, .tax, .inx] → t.x = s.x) ∧
    (i.mnemonic ≠ .ldy → t.y = s.y) ∧
    (i.mnemonic ∉ [.jsr, .rts] → t.sp = s.sp) ∧
    (i.mnemonic ∉ setsFlags → t.p = s.p) ∧
    (∀ k, k ≠ 1 → k ≠ 7 → t.p.getLsbD k = s.p.getLsbD k) ∧
    (i.mnemonic ≠ .brk → t.run = s.run) ∧
    ∀ c, c ∉ storedCells i s → t.busRead c = s.busRead c

/-- The whole-machine form of R10 to R13 and R20: whatever a step changed, the opcode it ran is one of those
the rule of that register, or of Mem, lists as its writers. -/
def Obligations.OnlyListedWritersChangeState : Prop :=
  ∀ s t : State, step s = .next t →
    (t.a ≠ s.a → opcodeIn [.lda, .txa] s) ∧
    (t.x ≠ s.x → opcodeIn [.ldx, .tax, .inx] s) ∧
    (t.y ≠ s.y → opcodeIn [.ldy] s) ∧
    (t.sp ≠ s.sp → opcodeIn [.jsr, .rts] s) ∧
    (t.p ≠ s.p → opcodeIn setsFlags s) ∧
    (∀ c, t.busRead c ≠ s.busRead c → opcodeIn [.sta, .stx, .sty, .jsr] s)

/-- R16: no instruction reads Z, N or any bit of P. Two cores that differ only in P take the same step, and
still differ only in P. -/
def Obligations.StatusIsNeverRead : Prop :=
  ∀ (s : State) (p : Byte),
    match step s with
    | .next t => ∃ q, step (s.setP p) = .next (t.setP q)
    | .fault f => step (s.setP p) = .fault f
    | .refused r => step (s.setP p) = .refused r

/-- R10 to R13: A is read only by STA and TAX; X only by STX, TXA, INX and the modes that index by X; Y only by
STY and the modes that index by Y; SP only by JSR and RTS. An instruction that does not read the register
does the same whatever it holds. -/
def Obligations.RegistersReadOnlyWhereListed : Prop :=
  ∀ (i : Instr) (s t : State) (v : Byte), exec i s = .next t →
    (i.mnemonic ∉ [.sta, .tax] → exec i (s.setA v) = .next (if i.mnemonic ∈ [.lda, .txa] then t else t.setA v)) ∧
    (i.mnemonic ∉ [.stx, .txa, .inx] → i.mode ∉ [.zeroPageX, .absoluteX, .indirectX] →
      exec i (s.setX v) = .next (if i.mnemonic ∈ [.ldx, .tax] then t else t.setX v)) ∧
    (i.mnemonic ≠ .sty → i.mode ∉ [.zeroPageY, .absoluteY, .indirectY] →
      exec i (s.setY v) = .next (if i.mnemonic = .ldy then t else t.setY v)) ∧
    (i.mnemonic ∉ [.jsr, .rts] → exec i (s.setSp v) = .next (t.setSp v))

/-! ## Memory and the stack -/

/-- R33: a byte write sets its cell, whichever it is, and changes nothing else. -/
def Obligations.ByteWrite : Prop :=
  ∀ (s : State) (addr : Addr) (v : Byte),
    (s.busWrite addr v).busRead addr = v ∧ (∀ c, c ≠ addr → (s.busWrite addr v).busRead c = s.busRead c) ∧
      s.busWrite addr v = { s with mem := (s.busWrite addr v).mem }

/-- R34, R35: words are little-endian, the second cell is at the address plus 1 modulo 65536, and a word
written is the word read, at 0xFFFF too. -/
def Obligations.WordAccessIsLittleEndian : Prop :=
  ∀ (s : State) (addr w : Addr),
    s.read16 addr = word (s.busRead (addr + 1)) (s.busRead addr) ∧
    (s.write16 addr w).read16 addr = w ∧ (s.write16 addr w).busRead addr = loByte w ∧
    (s.write16 addr w).busRead (addr + 1) = hiByte w ∧
    ∀ c, c ≠ addr → c ≠ addr + 1 → (s.write16 addr w).busRead c = s.busRead c

/-- Mem is determined by its cells: two memories in canonical form that read alike at every address are the
same data (R20; the form is the model's choice: log 10). -/
def Obligations.CanonicalMemoryIsDeterminedByReads : Prop :=
  ∀ m n : Memory, m.wf = true → n.wf = true → (∀ k, k < 65536 → m.get k = n.get k) → m = n

/-- R91, R92: on any stack base, a push writes its byte to the cell SP names and lowers SP; a pop after it
returns the byte and restores SP, for every SP, 0x00 included (the two steps are the spec's decision D3:
log 3). -/
def Obligations.PopUndoesPush : Prop :=
  ∀ (base : Addr) (b : Byte) (s : State),
    (push base b s).busRead (base + zext s.sp) = b ∧ (push base b s).sp = s.sp - 1 ∧
    (pop base (push base b s)).1 = b ∧ (pop base (push base b s)).2.sp = s.sp ∧
    (∀ c, c ≠ base + zext s.sp → (push base b s).busRead c = s.busRead c) ∧
    ∀ c, (pop base s).2.busRead c = s.busRead c

/-- R96: a JSR whose target holds RTS comes back. After the two steps PC is 3 past the JSR, SP is
as before, A, X, Y, P and RUN are as before, and memory is as the JSR left it, for every SP and every
address (rests on logs 2, 3, 4, and is the spec's inference). -/
def Obligations.CallAndReturnRoundTrip : Prop :=
  ∀ s t : State, s.run = .running → s.busRead s.pc = 0x20 → step s = .next t → t.busRead t.pc = 0x60 →
    step t = .next { s with pc := s.pc + 3, mem := t.mem }

/-- R90 with the alternative parameter of R5: on a core with STACK_BASE = 0x0000 a JSR stores its return
address in the zero page, at the numeric value of SP (the spec's decision D2: log 2). -/
def Obligations.StackBaseZeroPushesIntoZeroPage : Prop :=
  ∀ s : State, s.run = .running → s.busRead s.pc = 0x20 →
    ∃ t, stepWith ⟨0x0000, optable⟩ s = .next t ∧
      t.busRead (zext s.sp) = hiByte (s.pc + 2) ∧ t.busRead (zext (s.sp - 1)) = loByte (s.pc + 2) ∧
      (∀ c, c ≠ zext s.sp → c ≠ zext (s.sp - 1) → t.busRead c = s.busRead c) ∧
      t = { s with pc := word (s.busRead (s.pc + 2)) (s.busRead (s.pc + 1)), sp := s.sp - 2, mem := t.mem }

/-- R43: a store is seen by the very next fetch. A STA Absolute that stores over the byte after itself makes
the next step fetch that byte; if it has no table entry, that step faults with it (the spec's inference and
decision D16: log 12). -/
def Obligations.StoreIsSeenByNextFetch : Prop :=
  ∀ s t : State, s.run = .running → s.fetch = some (.staAbs (s.pc + 3)) → step s = .next t →
    t.busRead t.pc = s.a ∧
    (lookup optable s.a = none →
      step t = .next { t with pc := s.pc + 4, run := .faulted (.unsupportedOpcode s.a (s.pc + 3)) })

/-- R44: the transactions of a step are reads followed by writes, each read returns what the cell held before
the step, and the writes, replayed in order, are all the step does to memory; a step has at most five (the order
is the spec's decision D15, and the trace the model's own addition: log 15). -/
def Obligations.BusTraceAccountsForMemory : Prop :=
  ∀ s t : State, step s = .next t →
    TraceAccounts (busTrace defaultParams s) s t ∧ (busTrace defaultParams s).length ≤ 5

/-- R44 with R102: the same under any parameters, and where no step is enabled, or the parameters are refused,
there is no transaction at all (logs 15 and 16). -/
def Obligations.BusTraceUnderAnyParameters : Prop :=
  ∀ (c : Params) (s : State),
    (∀ t, stepWith c s = .next t → TraceAccounts (busTrace c s) s t) ∧
    ((∀ t, stepWith c s ≠ .next t) → busTrace c s = [])

/-! ## Invariants -/

/-- Headline: every step keeps Mem in canonical form and P one of 0x00, 0x02, 0x80 (R17; that P holds no
other value is the spec's inference, and the canonical form the model's choice: logs 18 and 10). -/
def Obligations.StepKeepsInv : Prop := ∀ s t : State, Inv s → step s = .next t → Inv t

/-- The invariant holds at reset. -/
def Obligations.ResetMeetsInv : Prop := Inv State.reset

/-- Headline: construction gives a state that is `Legal`, and every step, load and reset keeps it so: Mem
canonical, P one of 0x00, 0x02, 0x80 from the first reset on (R17), a Faulted core with PC one past an opcode
byte without a table entry (R101; logs 7, 9, 10 and 18). -/
def Obligations.EveryMoveKeepsLegal : Prop :=
  (∀ u : PowerOnRegs, Legal (construct u)) ∧
  (∀ s t : State, Legal s → step s = .next t → Legal t) ∧
  (∀ (s t : State) (image : List Byte), Legal s → load image s = .loaded t → Legal t) ∧
  ∀ s : State, Legal s → Legal (resetCore s)

/-- In every state that construction, loads, resets and steps lead to, in any order, Mem is canonical, P is one
of 0x00, 0x02, 0x80 from the first reset on (R17), and a Faulted core has PC one past an opcode byte without a
table entry (R101; logs 7, 9, 10 and 18). -/
def Obligations.ReachableStatesAreLegal : Prop := ∀ s : State, Reachable s → Legal s

/-! ## The host's operations -/

/-- R21: what reset leaves, from any state: A, X, Y and P 0x00, SP 0xFF, PC the word at 0xFFFC with its low
byte there, RUN Running, Mem unchanged. -/
def Obligations.ResetEffect : Prop :=
  ∀ s : State,
    resetCore s =
      { a := 0x00, x := 0x00, y := 0x00, sp := 0xFF, p := 0x00, pc := word (s.busRead 0xFFFD) (s.busRead 0xFFFC),
        run := .running, mem := s.mem }

/-- R124, R22: a second reset changes nothing more, and `State.reset` is what reset makes of a constructed
core, whatever its registers held (that they are unspecified is the spec's decision D9: log 9). -/
def Obligations.ResetOfConstructedCore : Prop :=
  (∀ s : State, resetCore (resetCore s) = resetCore s) ∧
    ∀ u : PowerOnRegs, (construct u).run = .powerOn ∧ resetCore (construct u) = State.reset ∧
      inspectRegisters (construct u) = none

/-- R122: what load does with an image that fits: the image upward from 0x8000, the reset vector last, no
other cell, no register and not RUN (the details are the spec's decision D14: log 13). -/
def Obligations.LoadEffect : Prop :=
  ∀ (image : List Byte) (s : State), image.length ≤ 0x8000 →
    ∃ t, load image s = .loaded t ∧
      (∀ (k : Nat) (hk : k < image.length), ¬ inVector (0x8000 + BitVec.ofNat 16 k) →
        t.busRead (0x8000 + BitVec.ofNat 16 k) = image[k]) ∧
      t.busRead 0xFFFC = 0x00 ∧ t.busRead 0xFFFD = 0x80 ∧
      (∀ c : Addr, ¬ inVector c → c.toNat < 0x8000 ∨ 0x8000 + image.length ≤ c.toNat → t.busRead c = s.busRead c) ∧
      t = { s with mem := t.mem }

/-- R103: a longer image is refused with ProgramTooLarge and its length, and no state comes of it. A smaller
image is accepted on the same core afterwards (that nothing is written is the spec's decision D14: log 13). -/
def Obligations.TooLargeImageIsRefused : Prop :=
  ∀ (image : List Byte) (s : State),
    (0x8000 < image.length → load image s = .programTooLarge image.length) ∧
      (image.length ≤ 0x8000 → ∃ t, load image s = .loaded t)

/-- R130: the standard launch state, after construct, load and reset (the spec's inference, with log 13). -/
def Obligations.LaunchState : Prop :=
  ∀ (u : PowerOnRegs) (image : List Byte), image.length ≤ 0x8000 →
    ∃ l t, load image (construct u) = .loaded l ∧ resetCore l = t ∧
      t = { a := 0x00, x := 0x00, y := 0x00, p := 0x00, sp := 0xFF, pc := 0x8000, run := .running, mem := t.mem } ∧
      t.busRead 0xFFFC = 0x00 ∧ t.busRead 0xFFFD = 0x80 ∧
      (∀ (k : Nat) (hk : k < image.length), ¬ inVector (0x8000 + BitVec.ofNat 16 k) →
        t.busRead (0x8000 + BitVec.ofNat 16 k) = image[k]) ∧
      (∀ c : Addr, ¬ inVector c → c.toNat < 0x8000 ∨ 0x8000 + image.length ≤ c.toNat → t.busRead c = 0x00)

/-- R126: the states after k step requests are those after the first k iterations of `run`, as long as none of
the states before is stopped; and once one is, further requests leave it as it is (the spec's decision D8:
log 8). -/
def Obligations.StepRequestsAreIterationsOfRun : Prop :=
  (∀ (k : Nat) (s : State), (∀ j, j < k → (runFor j s).run = .running) → Host.Core.run core k s = .next (runFor k s)) ∧
    ∀ (j k : Nat) (s : State), (runFor j s).run ≠ .running → runFor (j + k) s = runFor j s

/-- R125, R131, R101: a run that returns does so in one state, and that state is Halted or Faulted if the run
began in Running; a run that ended in Faulted did not end normally. -/
def Obligations.RunReturnsOnce : Prop :=
  (∀ s t u : State, RunReturns s t → RunReturns s u → t = u) ∧
    (∀ s t : State, s.run = .running → RunReturns s t → t.run = .halted ∨ ∃ c, t.run = .faulted c) ∧
    ∀ (s t : State) (c : Condition), RunReturns s t → t.run = .faulted c → ¬ EndsNormally s

/-- R79: a JMP to itself never stops, and the model puts no limit on it: every number of steps leaves the same
Running state, and the run does not return. -/
def Obligations.JmpToItselfNeverReturns : Prop :=
  ∀ s : State, s.run = .running → s.fetch = some (.jmpAbs s.pc) →
    (∀ k, runFor k s = s) ∧ ¬ ∃ t, RunReturns s t

/-- R19, R123: no step is enabled in PowerOn, none enters it, load leaves RUN alone (so a load before the first
reset does not start the core), and reset leads to Running. PowerOn is the spec's decision D9 (log 9), and that
a stopped core has no step its decision D8 (log 8). -/
def Obligations.PowerOnIsLeftOnlyByReset : Prop :=
  ∀ s : State,
    (s.run = .powerOn → step s = .fault .stepBeforeReset) ∧ (∀ t, step s = .next t → t.run ≠ .powerOn) ∧
      (∀ image t, load image s = .loaded t → t.run = s.run) ∧ (resetCore s).run = .running
end

