-- ==== Sys2Proof/Laws/Decode.lean ====
section
/-! SUPPORT. The laws of the byte and word helpers and of the decoder's parts. -/

namespace Sys2Proof

/-- Bits 7 to 0 of a word are its low byte, bits 15 to 8 its high byte. -/
theorem getLsbD_word (hi lo : Byte) (i : Nat) :
    (word hi lo).getLsbD i = if i < 8 then lo.getLsbD i else hi.getLsbD (i - 8) :=
  BitVec.getLsbD_append

theorem getLsbD_loByte (w : Addr) (i : Nat) : (loByte w).getLsbD i = (decide (i < 8) && w.getLsbD i) := by
  simp [loByte]

theorem getLsbD_hiByte (w : Addr) (i : Nat) : (hiByte w).getLsbD i = (decide (i < 8) && w.getLsbD (8 + i)) := by
  simp [hiByte]

@[simp] theorem loByte_word (hi lo : Byte) : loByte (word hi lo) = lo := by
  apply BitVec.eq_of_getLsbD_eq
  intro i hi'
  rw [getLsbD_loByte, getLsbD_word]
  simp [hi']

@[simp] theorem hiByte_word (hi lo : Byte) : hiByte (word hi lo) = hi := by
  apply BitVec.eq_of_getLsbD_eq
  intro i hi'
  rw [getLsbD_hiByte, getLsbD_word]
  simp [hi']

@[simp] theorem word_hiByte_loByte (w : Addr) : word (hiByte w) (loByte w) = w := by
  apply BitVec.eq_of_getLsbD_eq
  intro i hi'
  rw [getLsbD_word, getLsbD_loByte, getLsbD_hiByte]
  by_cases h : i < 8
  · simp [h]
  · have h8 : 8 + (i - 8) = i := by omega
    have hlt : i - 8 < 8 := by omega
    simp [h, h8, hlt]

theorem zext_toNat (b : Byte) : (zext b).toNat = b.toNat := by
  simp only [zext, BitVec.toNat_setWidth]
  omega

theorem zext_inj {b c : Byte} : zext b = zext c ↔ b = c :=
  ⟨fun h => BitVec.eq_of_toNat_eq (by rw [← zext_toNat, h, zext_toNat]), fun h => by rw [h]⟩

/-- Decoding from three bytes in hand is decoding the list of them: the one rejection left is an
unsupported opcode. -/
theorem decodeInstr_none_iff (op b1 b2 : Byte) : decodeInstr op b1 b2 = none ↔ form op = none := by
  simp [decodeInstr]

theorem decodeBytes_unsupported {op : Byte} (rest : List Byte) (h : form op = none) :
    decodeBytes (op :: rest) = .rejected (.unsupportedOpcode op) := by
  simp [decodeBytes, h]

theorem decodeBytes_f0 {op : Byte} {i : Instr} (rest : List Byte) (h : form op = some (.f0 i)) :
    decodeBytes (op :: rest) = .accepted i rest := by
  simp [decodeBytes, h]

theorem decodeBytes_f1 {op : Byte} {make : Byte → Instr} (b1 : Byte) (rest : List Byte)
    (h : form op = some (.f1 make)) : decodeBytes (op :: b1 :: rest) = .accepted (make b1) rest := by
  simp [decodeBytes, h]

theorem decodeBytes_f2 {op : Byte} {make : Addr → Instr} (b1 b2 : Byte) (rest : List Byte)
    (h : form op = some (.f2 make)) :
    decodeBytes (op :: b1 :: b2 :: rest) = .accepted (make (word b2 b1)) rest := by
  simp [decodeBytes, h]

end Sys2Proof
end

