-- ==== Sys2Proof/Laws/State.lean ====
section
/-! SUPPORT. What each update of the state does to each field, so that no later proof unfolds a record
update. -/

namespace Sys2Proof.Machine.State

variable (s : State)

@[simp] theorem setA_a (v : Byte) : (s.setA v).a = v := rfl
@[simp] theorem setA_x (v : Byte) : (s.setA v).x = s.x := rfl
@[simp] theorem setA_y (v : Byte) : (s.setA v).y = s.y := rfl
@[simp] theorem setA_sp (v : Byte) : (s.setA v).sp = s.sp := rfl
@[simp] theorem setA_p (v : Byte) : (s.setA v).p = s.p := rfl
@[simp] theorem setA_pc (v : Byte) : (s.setA v).pc = s.pc := rfl
@[simp] theorem setA_run (v : Byte) : (s.setA v).run = s.run := rfl
@[simp] theorem setA_mem (v : Byte) : (s.setA v).mem = s.mem := rfl
@[simp] theorem busRead_setA (v : Byte) (addr : Addr) : (s.setA v).busRead addr = s.busRead addr := rfl

@[simp] theorem setX_a (v : Byte) : (s.setX v).a = s.a := rfl
@[simp] theorem setX_x (v : Byte) : (s.setX v).x = v := rfl
@[simp] theorem setX_y (v : Byte) : (s.setX v).y = s.y := rfl
@[simp] theorem setX_sp (v : Byte) : (s.setX v).sp = s.sp := rfl
@[simp] theorem setX_p (v : Byte) : (s.setX v).p = s.p := rfl
@[simp] theorem setX_pc (v : Byte) : (s.setX v).pc = s.pc := rfl
@[simp] theorem setX_run (v : Byte) : (s.setX v).run = s.run := rfl
@[simp] theorem setX_mem (v : Byte) : (s.setX v).mem = s.mem := rfl
@[simp] theorem busRead_setX (v : Byte) (addr : Addr) : (s.setX v).busRead addr = s.busRead addr := rfl

@[simp] theorem setY_a (v : Byte) : (s.setY v).a = s.a := rfl
@[simp] theorem setY_x (v : Byte) : (s.setY v).x = s.x := rfl
@[simp] theorem setY_y (v : Byte) : (s.setY v).y = v := rfl
@[simp] theorem setY_sp (v : Byte) : (s.setY v).sp = s.sp := rfl
@[simp] theorem setY_p (v : Byte) : (s.setY v).p = s.p := rfl
@[simp] theorem setY_pc (v : Byte) : (s.setY v).pc = s.pc := rfl
@[simp] theorem setY_run (v : Byte) : (s.setY v).run = s.run := rfl
@[simp] theorem setY_mem (v : Byte) : (s.setY v).mem = s.mem := rfl
@[simp] theorem busRead_setY (v : Byte) (addr : Addr) : (s.setY v).busRead addr = s.busRead addr := rfl

@[simp] theorem setSp_a (v : Byte) : (s.setSp v).a = s.a := rfl
@[simp] theorem setSp_x (v : Byte) : (s.setSp v).x = s.x := rfl
@[simp] theorem setSp_y (v : Byte) : (s.setSp v).y = s.y := rfl
@[simp] theorem setSp_sp (v : Byte) : (s.setSp v).sp = v := rfl
@[simp] theorem setSp_p (v : Byte) : (s.setSp v).p = s.p := rfl
@[simp] theorem setSp_pc (v : Byte) : (s.setSp v).pc = s.pc := rfl
@[simp] theorem setSp_run (v : Byte) : (s.setSp v).run = s.run := rfl
@[simp] theorem setSp_mem (v : Byte) : (s.setSp v).mem = s.mem := rfl
@[simp] theorem busRead_setSp (v : Byte) (addr : Addr) : (s.setSp v).busRead addr = s.busRead addr := rfl

@[simp] theorem setP_a (v : Byte) : (s.setP v).a = s.a := rfl
@[simp] theorem setP_x (v : Byte) : (s.setP v).x = s.x := rfl
@[simp] theorem setP_y (v : Byte) : (s.setP v).y = s.y := rfl
@[simp] theorem setP_sp (v : Byte) : (s.setP v).sp = s.sp := rfl
@[simp] theorem setP_p (v : Byte) : (s.setP v).p = v := rfl
@[simp] theorem setP_pc (v : Byte) : (s.setP v).pc = s.pc := rfl
@[simp] theorem setP_run (v : Byte) : (s.setP v).run = s.run := rfl
@[simp] theorem setP_mem (v : Byte) : (s.setP v).mem = s.mem := rfl
@[simp] theorem busRead_setP (v : Byte) (addr : Addr) : (s.setP v).busRead addr = s.busRead addr := rfl

@[simp] theorem setPc_a (v : Addr) : (s.setPc v).a = s.a := rfl
@[simp] theorem setPc_x (v : Addr) : (s.setPc v).x = s.x := rfl
@[simp] theorem setPc_y (v : Addr) : (s.setPc v).y = s.y := rfl
@[simp] theorem setPc_sp (v : Addr) : (s.setPc v).sp = s.sp := rfl
@[simp] theorem setPc_p (v : Addr) : (s.setPc v).p = s.p := rfl
@[simp] theorem setPc_pc (v : Addr) : (s.setPc v).pc = v := rfl
@[simp] theorem setPc_run (v : Addr) : (s.setPc v).run = s.run := rfl
@[simp] theorem setPc_mem (v : Addr) : (s.setPc v).mem = s.mem := rfl
@[simp] theorem busRead_setPc (v : Addr) (addr : Addr) : (s.setPc v).busRead addr = s.busRead addr := rfl

@[simp] theorem setRun_a (v : RunState) : (s.setRun v).a = s.a := rfl
@[simp] theorem setRun_x (v : RunState) : (s.setRun v).x = s.x := rfl
@[simp] theorem setRun_y (v : RunState) : (s.setRun v).y = s.y := rfl
@[simp] theorem setRun_sp (v : RunState) : (s.setRun v).sp = s.sp := rfl
@[simp] theorem setRun_p (v : RunState) : (s.setRun v).p = s.p := rfl
@[simp] theorem setRun_pc (v : RunState) : (s.setRun v).pc = s.pc := rfl
@[simp] theorem setRun_run (v : RunState) : (s.setRun v).run = v := rfl
@[simp] theorem setRun_mem (v : RunState) : (s.setRun v).mem = s.mem := rfl
@[simp] theorem busRead_setRun (v : RunState) (addr : Addr) : (s.setRun v).busRead addr = s.busRead addr := rfl

@[simp] theorem busWrite_a (addr : Addr) (v : Byte) : (s.busWrite addr v).a = s.a := rfl
@[simp] theorem busWrite_x (addr : Addr) (v : Byte) : (s.busWrite addr v).x = s.x := rfl
@[simp] theorem busWrite_y (addr : Addr) (v : Byte) : (s.busWrite addr v).y = s.y := rfl
@[simp] theorem busWrite_sp (addr : Addr) (v : Byte) : (s.busWrite addr v).sp = s.sp := rfl
@[simp] theorem busWrite_p (addr : Addr) (v : Byte) : (s.busWrite addr v).p = s.p := rfl
@[simp] theorem busWrite_pc (addr : Addr) (v : Byte) : (s.busWrite addr v).pc = s.pc := rfl
@[simp] theorem busWrite_run (addr : Addr) (v : Byte) : (s.busWrite addr v).run = s.run := rfl
@[simp] theorem busWrite_mem (addr : Addr) (v : Byte) : (s.busWrite addr v).mem = s.mem.set addr.toNat v := rfl

@[simp] theorem flagZN_a (v : Byte) : (s.flagZN v).a = s.a := rfl
@[simp] theorem flagZN_x (v : Byte) : (s.flagZN v).x = s.x := rfl
@[simp] theorem flagZN_y (v : Byte) : (s.flagZN v).y = s.y := rfl
@[simp] theorem flagZN_sp (v : Byte) : (s.flagZN v).sp = s.sp := rfl
@[simp] theorem flagZN_p (v : Byte) : (s.flagZN v).p = setZN s.p v := rfl
@[simp] theorem flagZN_pc (v : Byte) : (s.flagZN v).pc = s.pc := rfl
@[simp] theorem flagZN_run (v : Byte) : (s.flagZN v).run = s.run := rfl
@[simp] theorem flagZN_mem (v : Byte) : (s.flagZN v).mem = s.mem := rfl
@[simp] theorem busRead_flagZN (v : Byte) (addr : Addr) : (s.flagZN v).busRead addr = s.busRead addr := rfl

@[simp] theorem pastOpcode_a : s.pastOpcode.a = s.a := rfl
@[simp] theorem pastOpcode_x : s.pastOpcode.x = s.x := rfl
@[simp] theorem pastOpcode_y : s.pastOpcode.y = s.y := rfl
@[simp] theorem pastOpcode_sp : s.pastOpcode.sp = s.sp := rfl
@[simp] theorem pastOpcode_p : s.pastOpcode.p = s.p := rfl
@[simp] theorem pastOpcode_pc : s.pastOpcode.pc = s.pc + 1 := rfl
@[simp] theorem pastOpcode_run : s.pastOpcode.run = s.run := rfl
@[simp] theorem pastOpcode_mem : s.pastOpcode.mem = s.mem := rfl
@[simp] theorem busRead_pastOpcode (addr : Addr) : s.pastOpcode.busRead addr = s.busRead addr := rfl

end Sys2Proof.Machine.State
end

