-- ==== Sys2Proof/Laws/Memory.lean ====
section
/-! SUPPORT. The laws of memory: a read after a write, the canonical form, and the bus on top of them.
Reading after writing holds of every list of cells, canonical or not. -/

namespace Sys2Proof.Machine

namespace Memory

theorem get_insert_same (k : Nat) (v : Byte) : ∀ m : Memory, (∀ c ∈ m, c.1 ≠ k) → (insert k v m).get k = v
  | [], _ => by simp [insert, get]
  | c :: cs, h => by
    simp only [insert]
    split
    · simp [get]
    · rw [get, if_neg (h c (by simp))]
      exact get_insert_same k v cs (fun d hd => h d (by simp [hd]))

theorem get_insert_ne (k j : Nat) (v : Byte) (hj : k ≠ j) : ∀ m : Memory, (insert k v m).get j = m.get j
  | [] => by simp [insert, get, hj]
  | c :: cs => by
    simp only [insert]
    split
    · simp [get, hj]
    · simp only [get, get_insert_ne k j v hj cs]

theorem get_eq_fill (k : Nat) : ∀ m : Memory, (∀ c ∈ m, c.1 ≠ k) → m.get k = Config.memFill
  | [], _ => rfl
  | c :: cs, h => by
    rw [get, if_neg (h c (by simp))]
    exact get_eq_fill k cs (fun d hd => h d (by simp [hd]))

theorem get_filter_ne (k j : Nat) (hj : k ≠ j) : ∀ m : Memory, get (m.filter (fun c => c.1 != k)) j = m.get j
  | [] => rfl
  | c :: cs => by
    by_cases hc : c.1 = k
    · simp [hc, get, hj, get_filter_ne k j hj cs]
    · simp [hc, get, get_filter_ne k j hj cs]

/-- A read of the address just written gives the byte written. -/
@[simp] theorem get_set_same (m : Memory) (k : Nat) (v : Byte) : (m.set k v).get k = v := by
  have hrest : ∀ c ∈ m.filter (fun c => c.1 != k), c.1 ≠ k := by simp
  simp only [set]
  split
  · next hv => rw [get_eq_fill k _ hrest, hv]
  · exact get_insert_same k v _ hrest

/-- A write leaves every other address alone. -/
theorem get_set_ne (m : Memory) {k j : Nat} (v : Byte) (hj : k ≠ j) : (m.set k v).get j = m.get j := by
  simp only [set]
  split
  · exact get_filter_ne k j hj m
  · rw [get_insert_ne k j v hj, get_filter_ne k j hj m]

theorem wf_filter (p : Host.Cell → Bool) : ∀ m : Memory, m.wf = true → wf (m.filter p) = true
  | [], _ => rfl
  | c :: cs, h => by
    simp only [wf, Bool.and_eq_true, decide_eq_true_eq, List.all_eq_true] at h
    obtain ⟨⟨⟨h1, h2⟩, h3⟩, h4⟩ := h
    by_cases hp : p c
    · simp only [List.filter_cons, hp, if_true, wf, Bool.and_eq_true, decide_eq_true_eq, List.all_eq_true]
      exact ⟨⟨⟨h1, h2⟩, fun d hd => h3 d (List.mem_filter.mp hd).1⟩, wf_filter p cs h4⟩
    · simpa [List.filter_cons, hp] using wf_filter p cs h4

theorem mem_insert {k : Nat} {v : Byte} {d : Host.Cell} : ∀ {m : Memory}, d ∈ insert k v m → d = (k, v) ∨ d ∈ m
  | [], h => by simpa [insert] using h
  | c :: cs, h => by
    simp only [insert] at h
    split at h
    · simpa using h
    · rcases List.mem_cons.mp h with h | h
      · simp [h]
      · rcases mem_insert h with h | h <;> simp [h]

theorem wf_insert (k : Nat) (v : Byte) (hk : k < Config.memSize) (hv : v ≠ Config.memFill) :
    ∀ m : Memory, m.wf = true → (∀ c ∈ m, c.1 ≠ k) → wf (insert k v m) = true
  | [], _, _ => by simpa [insert, wf, hk] using hv
  | c :: cs, h, hne => by
    have hc := hne c (by simp)
    have h' := h
    simp only [wf, Bool.and_eq_true, decide_eq_true_eq, List.all_eq_true] at h
    obtain ⟨⟨⟨h1, h2⟩, h3⟩, h4⟩ := h
    simp only [insert]
    split
    · next hlt =>
      rw [wf, Bool.and_eq_true, Bool.and_eq_true, Bool.and_eq_true, List.all_eq_true]
      refine ⟨⟨⟨by simpa using hk, by simpa using hv⟩, ?_⟩, h'⟩
      intro d hd
      rcases List.mem_cons.mp hd with rfl | hd
      · simpa using hlt
      · have := h3 d hd
        simp only [decide_eq_true_eq]
        omega
    · next hlt =>
      simp only [wf, Bool.and_eq_true, decide_eq_true_eq, List.all_eq_true]
      refine ⟨⟨⟨h1, h2⟩, ?_⟩, wf_insert k v hk hv cs h4 (fun d hd => hne d (by simp [hd]))⟩
      intro d hd
      rcases mem_insert hd with rfl | hd
      · show c.1 < k
        omega
      · exact h3 d hd

/-- Every write to an address of the space keeps the canonical form. -/
theorem wf_set {m : Memory} {k : Nat} (v : Byte) (hm : m.wf = true) (hk : k < Config.memSize) :
    (m.set k v).wf = true := by
  have hrest := wf_filter (fun c => c.1 != k) m hm
  simp only [set]
  split
  · exact hrest
  · next hv => exact wf_insert k v hk hv _ hrest (by simp)

end Memory

namespace State

/-- A bus write keeps Mem in canonical form: a 16-bit address is always in the space. -/
theorem busWrite_wf {s : State} (addr : Addr) (v : Byte) (h : s.mem.wf = true) : (s.busWrite addr v).mem.wf = true :=
  Memory.wf_set v h addr.isLt

theorem write16_wf {s : State} (addr w : Addr) (h : s.mem.wf = true) : (s.write16 addr w).mem.wf = true :=
  busWrite_wf _ _ (busWrite_wf _ _ h)

@[simp] theorem busRead_busWrite_same (s : State) (addr : Addr) (v : Byte) : (s.busWrite addr v).busRead addr = v :=
  Memory.get_set_same _ _ _

theorem busRead_busWrite_ne (s : State) {addr c : Addr} (v : Byte) (h : c ≠ addr) :
    (s.busWrite addr v).busRead c = s.busRead c :=
  Memory.get_set_ne _ _ (fun e => h (BitVec.eq_of_toNat_eq e.symm))

end State

theorem reset_mem_wf : State.reset.mem.wf = true := rfl

end Sys2Proof.Machine
end

