-- ==== Sys2Proof/Laws/Ops.lean ====
section
/-! SUPPORT. One lemma for each shared operation that says everything it can do; provers cite these and do
not unfold the operation. -/

namespace Sys2Proof.Machine

@[simp] theorem finish_cont (size : Addr) (s : State) : finish size ⟨s, .cont⟩ = s.setPc (s.pc + size) := rfl
@[simp] theorem finish_jumped (size t : Addr) (s : State) : finish size ⟨s, .jumped t⟩ = s.setPc t := rfl
@[simp] theorem finish_halt (size : Addr) (s : State) : finish size ⟨s, .halt⟩ = s.setRun .halted := rfl

/-- The dispatcher around a handler always answers a next state, and it is this one. -/
theorem perform_eq_next {size : Addr} {handler : State → Handled} {s t : State} :
    perform size handler s = .next t ↔ t = finish size (handler s.pastOpcode) := by
  simp [perform, eq_comm]

/-- Whatever handler runs, the dispatcher changes only PC and RUN of what the handler leaves. -/
theorem finish_frame (size : Addr) (h : Handled) :
    (finish size h).a = h.st.a ∧ (finish size h).x = h.st.x ∧ (finish size h).y = h.st.y ∧
      (finish size h).sp = h.st.sp ∧ (finish size h).p = h.st.p ∧ (finish size h).mem = h.st.mem := by
  obtain ⟨st, flow⟩ := h
  cases flow <;> simp

/-- A push writes one cell and moves SP; nothing else changes. -/
theorem push_eq (base : Addr) (b : Byte) (s : State) :
    push base b s = { s with mem := s.mem.set (stackAddr base s.sp).toNat b, sp := s.sp - 1 } := rfl

/-- A pop moves SP and reads one cell of an unchanged memory. -/
theorem pop_eq (base : Addr) (s : State) :
    pop base s = (s.busRead (stackAddr base (s.sp + 1)), { s with sp := s.sp + 1 }) := rfl

/-- Two stack cells are the same cell only for the same SP. -/
theorem stackAddr_inj {base : Addr} {p q : Byte} : stackAddr base p = stackAddr base q ↔ p = q := by
  constructor
  · intro h
    exact zext_inj.mp (by simpa [stackAddr] using h)
  · rintro rfl
    rfl

theorem raiseUnsupportedOpcode_eq (op : Byte) (s : State) :
    raiseUnsupportedOpcode op s = { s with pc := s.pc + 1, run := .faulted (.unsupportedOpcode op s.pc) } := rfl

/-- What JSR does to the state before the dispatcher's jump: two cells, SP and PC, nothing else. -/
theorem jumpSubroutine_eq (base size t : Addr) (s : State) :
    jumpSubroutine base size t s =
      ⟨((s.busWrite (stackAddr base s.sp) (hiByte (s.pc + size - 1))).busWrite (stackAddr base (s.sp - 1))
          (loByte (s.pc + size - 1))).setSp (s.sp - 1 - 1) |>.setPc (s.pc + size), .jumped t⟩ := rfl

/-- What RTS does: SP moves by two pops, and the target is the popped word plus 1. -/
theorem returnSubroutine_eq (base : Addr) (s : State) :
    returnSubroutine base s =
      ⟨s.setSp (s.sp + 1 + 1),
        .jumped (word (s.busRead (stackAddr base (s.sp + 1 + 1))) (s.busRead (stackAddr base (s.sp + 1))) + 1)⟩ := rfl

/-- SetZN leaves one of the three legal values when the six unnamed bits are 0. -/
theorem setZN_of_clear {p : Byte} (v : Byte) (h : p &&& 0x7D#8 = 0#8) :
    setZN p v = if v = 0#8 then 0x02#8 else v &&& 0x80#8 := by
  unfold setZN
  rw [h]
  by_cases hv : v = 0#8
  · subst hv
    rfl
  · rw [if_neg hv, if_neg hv]
    simp

/-- In a Running core the step is decided by the fetch alone. -/
theorem step_of_running {s : State} (h : s.run = .running) :
    step s = match s.fetch with
      | some i => exec i s
      | none => .next (raiseUnsupportedOpcode (s.busRead s.pc) s) := by
  cases s with
  | mk a x y sp p pc run mem =>
    change run = .running at h
    subst h
    rfl

/-- The only ways a step answers a next state: the core is Running, and either the byte at PC decodes and
its instruction runs, or it does not and UnsupportedOpcode is taken. -/
theorem step_cases {s t : State} (h : step s = .next t) :
    s.run = .running ∧
      ((∃ i, s.fetch = some i ∧ exec i s = .next t) ∨
        (s.fetch = none ∧ t = raiseUnsupportedOpcode (s.busRead s.pc) s)) := by
  unfold step at h
  split at h
  · cases h
  · cases h
  · cases h
  · next hrun =>
    refine ⟨hrun, ?_⟩
    split at h
    · next i hi => exact .inl ⟨i, hi, h⟩
    · next hn =>
      cases h
      exact .inr ⟨hn, rfl⟩

end Sys2Proof.Machine
end

