-- ==== Sys2Proof/Laws/Exec.lean ====
section
/-! SUPPORT. Each arm of `exec` as one handler inside `finish`: the lemmas a proof rewrites with, so that
`exec` is not unfolded. -/

namespace Sys2Proof.Machine

theorem exec_ldaImm (b1 : Byte) (s : State) :
    exec (.ldaImm b1) s = .next (finish 1 (loadA b1 s.pastOpcode)) := rfl
theorem exec_ldaZp (b1 : Byte) (s : State) :
    exec (.ldaZp b1) s = .next (finish 1 (loadA (s.busRead (eaZeroPage b1)) s.pastOpcode)) := rfl
theorem exec_ldaZpX (b1 : Byte) (s : State) :
    exec (.ldaZpX b1) s = .next (finish 1 (loadA (s.busRead (eaZeroPageX b1 s)) s.pastOpcode)) := rfl
theorem exec_ldaAbs (w : Addr) (s : State) :
    exec (.ldaAbs w) s = .next (finish 2 (loadA (s.busRead (eaAbsolute w)) s.pastOpcode)) := rfl
theorem exec_ldaAbsX (w : Addr) (s : State) :
    exec (.ldaAbsX w) s = .next (finish 2 (loadA (s.busRead (eaAbsoluteX w s)) s.pastOpcode)) := rfl
theorem exec_ldaAbsY (w : Addr) (s : State) :
    exec (.ldaAbsY w) s = .next (finish 2 (loadA (s.busRead (eaAbsoluteY w s)) s.pastOpcode)) := rfl
theorem exec_ldaIndX (b1 : Byte) (s : State) :
    exec (.ldaIndX b1) s = .next (finish 1 (loadA (s.busRead (eaIndirectX b1 s)) s.pastOpcode)) := rfl
theorem exec_ldaIndY (b1 : Byte) (s : State) :
    exec (.ldaIndY b1) s = .next (finish 1 (loadA (s.busRead (eaIndirectY b1 s)) s.pastOpcode)) := rfl
theorem exec_ldxImm (b1 : Byte) (s : State) :
    exec (.ldxImm b1) s = .next (finish 1 (loadX b1 s.pastOpcode)) := rfl
theorem exec_ldxZp (b1 : Byte) (s : State) :
    exec (.ldxZp b1) s = .next (finish 1 (loadX (s.busRead (eaZeroPage b1)) s.pastOpcode)) := rfl
theorem exec_ldxZpY (b1 : Byte) (s : State) :
    exec (.ldxZpY b1) s = .next (finish 1 (loadX (s.busRead (eaZeroPageY b1 s)) s.pastOpcode)) := rfl
theorem exec_ldxAbs (w : Addr) (s : State) :
    exec (.ldxAbs w) s = .next (finish 2 (loadX (s.busRead (eaAbsolute w)) s.pastOpcode)) := rfl
theorem exec_ldxAbsY (w : Addr) (s : State) :
    exec (.ldxAbsY w) s = .next (finish 2 (loadX (s.busRead (eaAbsoluteY w s)) s.pastOpcode)) := rfl
theorem exec_ldyImm (b1 : Byte) (s : State) :
    exec (.ldyImm b1) s = .next (finish 1 (loadY b1 s.pastOpcode)) := rfl
theorem exec_ldyZp (b1 : Byte) (s : State) :
    exec (.ldyZp b1) s = .next (finish 1 (loadY (s.busRead (eaZeroPage b1)) s.pastOpcode)) := rfl
theorem exec_ldyZpX (b1 : Byte) (s : State) :
    exec (.ldyZpX b1) s = .next (finish 1 (loadY (s.busRead (eaZeroPageX b1 s)) s.pastOpcode)) := rfl
theorem exec_ldyAbs (w : Addr) (s : State) :
    exec (.ldyAbs w) s = .next (finish 2 (loadY (s.busRead (eaAbsolute w)) s.pastOpcode)) := rfl
theorem exec_ldyAbsX (w : Addr) (s : State) :
    exec (.ldyAbsX w) s = .next (finish 2 (loadY (s.busRead (eaAbsoluteX w s)) s.pastOpcode)) := rfl
theorem exec_staZp (b1 : Byte) (s : State) :
    exec (.staZp b1) s = .next (finish 1 (storeA (eaZeroPage b1) s.pastOpcode)) := rfl
theorem exec_staZpX (b1 : Byte) (s : State) :
    exec (.staZpX b1) s = .next (finish 1 (storeA (eaZeroPageX b1 s) s.pastOpcode)) := rfl
theorem exec_staAbs (w : Addr) (s : State) :
    exec (.staAbs w) s = .next (finish 2 (storeA (eaAbsolute w) s.pastOpcode)) := rfl
theorem exec_staAbsX (w : Addr) (s : State) :
    exec (.staAbsX w) s = .next (finish 2 (storeA (eaAbsoluteX w s) s.pastOpcode)) := rfl
theorem exec_staAbsY (w : Addr) (s : State) :
    exec (.staAbsY w) s = .next (finish 2 (storeA (eaAbsoluteY w s) s.pastOpcode)) := rfl
theorem exec_staIndX (b1 : Byte) (s : State) :
    exec (.staIndX b1) s = .next (finish 1 (storeA (eaIndirectX b1 s) s.pastOpcode)) := rfl
theorem exec_staIndY (b1 : Byte) (s : State) :
    exec (.staIndY b1) s = .next (finish 1 (storeA (eaIndirectY b1 s) s.pastOpcode)) := rfl
theorem exec_stxZp (b1 : Byte) (s : State) :
    exec (.stxZp b1) s = .next (finish 1 (storeX (eaZeroPage b1) s.pastOpcode)) := rfl
theorem exec_stxZpY (b1 : Byte) (s : State) :
    exec (.stxZpY b1) s = .next (finish 1 (storeX (eaZeroPageY b1 s) s.pastOpcode)) := rfl
theorem exec_stxAbs (w : Addr) (s : State) :
    exec (.stxAbs w) s = .next (finish 2 (storeX (eaAbsolute w) s.pastOpcode)) := rfl
theorem exec_styZp (b1 : Byte) (s : State) :
    exec (.styZp b1) s = .next (finish 1 (storeY (eaZeroPage b1) s.pastOpcode)) := rfl
theorem exec_styZpX (b1 : Byte) (s : State) :
    exec (.styZpX b1) s = .next (finish 1 (storeY (eaZeroPageX b1 s) s.pastOpcode)) := rfl
theorem exec_styAbs (w : Addr) (s : State) :
    exec (.styAbs w) s = .next (finish 2 (storeY (eaAbsolute w) s.pastOpcode)) := rfl
theorem exec_jmpAbs (w : Addr) (s : State) :
    exec (.jmpAbs w) s = .next (finish 2 (jump (eaAbsolute w) s.pastOpcode)) := rfl
theorem exec_jmpInd (b1 : Byte) (s : State) :
    exec (.jmpInd b1) s = .next (finish 1 (jump (eaIndirect b1 s) s.pastOpcode)) := rfl
theorem exec_jsrAbs (w : Addr) (s : State) :
    exec (.jsrAbs w) s = .next (finish 2 (jumpSubroutine stackBase 2 (eaAbsolute w) s.pastOpcode)) := rfl
theorem exec_rts (s : State) :
    exec .rts s = .next (finish 0 (returnSubroutine stackBase s.pastOpcode)) := rfl
theorem exec_brk (s : State) :
    exec .brk s = .next (finish 0 (halt s.pastOpcode)) := rfl
theorem exec_tax (s : State) :
    exec .tax s = .next (finish 0 (transferAX s.pastOpcode)) := rfl
theorem exec_txa (s : State) :
    exec .txa s = .next (finish 0 (transferXA s.pastOpcode)) := rfl
theorem exec_inx (s : State) :
    exec .inx s = .next (finish 0 (incrementX s.pastOpcode)) := rfl

/-! What each handler leaves, and with which outcome. -/

theorem loadA_eq (v : Byte) (s : State) : loadA v s = ⟨(s.setA v).flagZN v, .cont⟩ := rfl
theorem loadX_eq (v : Byte) (s : State) : loadX v s = ⟨(s.setX v).flagZN v, .cont⟩ := rfl
theorem loadY_eq (v : Byte) (s : State) : loadY v s = ⟨(s.setY v).flagZN v, .cont⟩ := rfl
theorem storeA_eq (addr : Addr) (s : State) : storeA addr s = ⟨s.busWrite addr s.a, .cont⟩ := rfl
theorem storeX_eq (addr : Addr) (s : State) : storeX addr s = ⟨s.busWrite addr s.x, .cont⟩ := rfl
theorem storeY_eq (addr : Addr) (s : State) : storeY addr s = ⟨s.busWrite addr s.y, .cont⟩ := rfl
theorem transferAX_eq (s : State) : transferAX s = loadX s.a s := rfl
theorem transferXA_eq (s : State) : transferXA s = loadA s.x s := rfl
theorem incrementX_eq (s : State) : incrementX s = loadX (s.x + 1) s := rfl
theorem jump_eq (t : Addr) (s : State) : jump t s = ⟨s, .jumped t⟩ := rfl
theorem halt_eq (s : State) : halt s = ⟨s, .halt⟩ := rfl

/-- Every instruction completes in every state: no meaning faults and none refuses. -/
theorem exec_ne_fault (i : Instr) (s : State) (f : Fault) : exec i s ≠ .fault f := by
  cases i <;> exact fun h => nomatch h

theorem exec_ne_refused (i : Instr) (s : State) (r : Refusal) : exec i s ≠ .refused r := by
  cases i <;> exact fun h => nomatch h

/-- The host's run takes a step of its machine first. -/
theorem run_succ_of_step {M : Host.Core} {s t : M.State} (h : M.step s = .next t) (k : Nat) :
    M.run (k + 1) s = M.run k t := by
  rw [Host.Core.run, h]

end Sys2Proof.Machine
end

