-- ==== Sys2Proof/Laws/PerInstr.lean ====
section
/-! SUPPORT. Facts about each instruction as syntax, one lemma for each constructor. -/

namespace Sys2Proof.Laws.OpcodeRow

/-- The table's entry for the instruction's opcode byte is its mnemonic and mode (R53); the pair is well
formed (R57); it has as many operand bytes as its mode says (R72). -/
def Statement (i : Instr) : Prop :=
  lookup optable i.opcode = some (i.mnemonic, i.mode) ∧ i.wf = true ∧
    BitVec.ofNat 16 i.operandBytes.length = Machine.operandSize i.mode

theorem brk : Statement .brk := ⟨rfl, rfl, rfl⟩
theorem jsrAbs (w : Addr) : Statement (.jsrAbs w) := ⟨rfl, rfl, rfl⟩
theorem jmpAbs (w : Addr) : Statement (.jmpAbs w) := ⟨rfl, rfl, rfl⟩
theorem rts : Statement .rts := ⟨rfl, rfl, rfl⟩
theorem jmpInd (b1 : Byte) : Statement (.jmpInd b1) := ⟨rfl, rfl, rfl⟩
theorem staIndX (b1 : Byte) : Statement (.staIndX b1) := ⟨rfl, rfl, rfl⟩
theorem styZp (b1 : Byte) : Statement (.styZp b1) := ⟨rfl, rfl, rfl⟩
theorem staZp (b1 : Byte) : Statement (.staZp b1) := ⟨rfl, rfl, rfl⟩
theorem stxZp (b1 : Byte) : Statement (.stxZp b1) := ⟨rfl, rfl, rfl⟩
theorem txa : Statement .txa := ⟨rfl, rfl, rfl⟩
theorem styAbs (w : Addr) : Statement (.styAbs w) := ⟨rfl, rfl, rfl⟩
theorem staAbs (w : Addr) : Statement (.staAbs w) := ⟨rfl, rfl, rfl⟩
theorem stxAbs (w : Addr) : Statement (.stxAbs w) := ⟨rfl, rfl, rfl⟩
theorem staIndY (b1 : Byte) : Statement (.staIndY b1) := ⟨rfl, rfl, rfl⟩
theorem styZpX (b1 : Byte) : Statement (.styZpX b1) := ⟨rfl, rfl, rfl⟩
theorem staZpX (b1 : Byte) : Statement (.staZpX b1) := ⟨rfl, rfl, rfl⟩
theorem stxZpY (b1 : Byte) : Statement (.stxZpY b1) := ⟨rfl, rfl, rfl⟩
theorem staAbsY (w : Addr) : Statement (.staAbsY w) := ⟨rfl, rfl, rfl⟩
theorem staAbsX (w : Addr) : Statement (.staAbsX w) := ⟨rfl, rfl, rfl⟩
theorem ldyImm (b1 : Byte) : Statement (.ldyImm b1) := ⟨rfl, rfl, rfl⟩
theorem ldaIndX (b1 : Byte) : Statement (.ldaIndX b1) := ⟨rfl, rfl, rfl⟩
theorem ldxImm (b1 : Byte) : Statement (.ldxImm b1) := ⟨rfl, rfl, rfl⟩
theorem ldyZp (b1 : Byte) : Statement (.ldyZp b1) := ⟨rfl, rfl, rfl⟩
theorem ldaZp (b1 : Byte) : Statement (.ldaZp b1) := ⟨rfl, rfl, rfl⟩
theorem ldxZp (b1 : Byte) : Statement (.ldxZp b1) := ⟨rfl, rfl, rfl⟩
theorem ldaImm (b1 : Byte) : Statement (.ldaImm b1) := ⟨rfl, rfl, rfl⟩
theorem tax : Statement .tax := ⟨rfl, rfl, rfl⟩
theorem ldyAbs (w : Addr) : Statement (.ldyAbs w) := ⟨rfl, rfl, rfl⟩
theorem ldaAbs (w : Addr) : Statement (.ldaAbs w) := ⟨rfl, rfl, rfl⟩
theorem ldxAbs (w : Addr) : Statement (.ldxAbs w) := ⟨rfl, rfl, rfl⟩
theorem ldaIndY (b1 : Byte) : Statement (.ldaIndY b1) := ⟨rfl, rfl, rfl⟩
theorem ldyZpX (b1 : Byte) : Statement (.ldyZpX b1) := ⟨rfl, rfl, rfl⟩
theorem ldaZpX (b1 : Byte) : Statement (.ldaZpX b1) := ⟨rfl, rfl, rfl⟩
theorem ldxZpY (b1 : Byte) : Statement (.ldxZpY b1) := ⟨rfl, rfl, rfl⟩
theorem ldaAbsY (w : Addr) : Statement (.ldaAbsY w) := ⟨rfl, rfl, rfl⟩
theorem ldyAbsX (w : Addr) : Statement (.ldyAbsX w) := ⟨rfl, rfl, rfl⟩
theorem ldaAbsX (w : Addr) : Statement (.ldaAbsX w) := ⟨rfl, rfl, rfl⟩
theorem ldxAbsY (w : Addr) : Statement (.ldxAbsY w) := ⟨rfl, rfl, rfl⟩
theorem inx : Statement .inx := ⟨rfl, rfl, rfl⟩

end Sys2Proof.Laws.OpcodeRow
end

