-- ==== Sys2Proof/Laws/Reference.lean ====
section
/-! SUPPORT. The check of the parameters said once, and what `stepWith` and `busTrace` do by its result. -/

namespace Sys2Proof

/-- An entry has no defect exactly when R57 holds of it and its opcode byte does not come again. -/
theorem rowDefect_eq_none_iff (r : Row) (rs : List Row) :
    rowDefect r rs = none ↔ pairWf r.mnemonic r.mode = true ∧ rs.all (fun r' => r'.opcode != r.opcode) = true := by
  obtain ⟨op, m, mode⟩ := r
  have hany : (rs.any (fun r' => r'.opcode == op) = true) ↔ ¬ rs.all (fun r' => r'.opcode != op) = true := by
    rw [List.any_eq_not_all_not]
    simp [bne]
  unfold rowDefect pairWf
  cases hm : m.resolves <;> cases mode <;> simp_all

theorem tableWf_cons (r : Row) (rs : List Row) :
    tableWf (r :: rs) = true ↔
      (pairWf r.mnemonic r.mode = true ∧ rs.all (fun r' => r'.opcode != r.opcode) = true) ∧ tableWf rs = true := by
  simp only [tableWf, distinctOpcodes, List.all_cons, Bool.and_eq_true]
  exact ⟨fun ⟨⟨a, b⟩, c, d⟩ => ⟨⟨a, c⟩, b, d⟩, fun ⟨⟨a, c⟩, b, d⟩ => ⟨⟨a, b⟩, c, d⟩⟩

/-- The start-up check finds nothing exactly in a well-formed table (R102). -/
theorem tableDefect_eq_none_iff (t : List Row) : tableDefect t = none ↔ tableWf t = true := by
  induction t with
  | nil => exact ⟨fun _ => rfl, fun _ => rfl⟩
  | cons r rs ih =>
    rw [tableWf_cons, ← rowDefect_eq_none_iff, ← ih]
    cases h : rowDefect r rs <;> simp [tableDefect, h]

end Sys2Proof

namespace Sys2Proof.Machine

/-- Parameters are admitted exactly when R57 and R5 admit them. -/
theorem Params.refusal_eq_none_iff (c : Params) :
    c.refusal = none ↔ tableWf c.optable = true ∧ Config.stackBaseAdmitted c.stackBase = true := by
  rw [← tableDefect_eq_none_iff]
  unfold Params.refusal
  cases tableDefect c.optable <;> simp

theorem defaultParams_admitted : defaultParams.refusal = none := by decide

theorem stepWith_of_refused {c : Params} {r : Refusal} (h : c.refusal = some r) (s : State) :
    stepWith c s = .refused r := by
  unfold stepWith
  rw [h]

theorem busTrace_of_refused {c : Params} {r : Refusal} (h : c.refusal = some r) (s : State) : busTrace c s = [] := by
  unfold busTrace
  rw [h]

/-- The only ways `stepWith` answers a next state: the parameters are admitted, the core is Running, and either
the byte at PC has no entry, or its handler runs and the dispatcher acts on the outcome. -/
theorem stepWith_cases {c : Params} {s t : State} (h : stepWith c s = .next t) :
    c.refusal = none ∧ s.run = .running ∧
      ((lookup c.optable (s.busRead s.pc) = none ∧ t = raiseUnsupportedOpcode (s.busRead s.pc) s) ∨
        ∃ m mode hd, lookup c.optable (s.busRead s.pc) = some (m, mode) ∧
          execAny c.stackBase m mode s.pastOpcode = some hd ∧ t = finish (operandSize mode) hd) := by
  unfold stepWith at h
  split at h
  · cases h
  · rename_i hc
    split at h
    · cases h
    · cases h
    · cases h
    · rename_i hr
      split at h
      · rename_i hl
        cases h
        exact ⟨hc, hr, .inl ⟨hl, rfl⟩⟩
      · rename_i m mode hl
        split at h
        · rename_i hd he
          cases h
          exact ⟨hc, hr, .inr ⟨m, mode, hd, hl, he, rfl⟩⟩
        · cases h

end Sys2Proof.Machine
end

