-- ==== Sys2Proof/Tests/Slice0.lean ====
section
/-! SUPPORT. Tests: what WellFormed refuses; words written out from the spec's encodings; single steps with
the results of spec/95_test_vectors.md (a theorem's name begins with the vector's id there); and for each
statement with hypotheses a state and operands that meet them. -/

namespace Sys2Proof.Tests

open Sys2Proof.Machine Sys2Proof.Claims

/-- The base state of 95_test_vectors.md with PC at `pc` and the cells `mem` (in rising order). -/
def base (pc : Addr) (mem : Memory) : State := { State.reset with pc := pc, mem := mem }

/-- The state a result answers, if it answers one. -/
def after : Result → Option State
  | .next t => some t
  | .fault _ => none
  | .refused _ => none

/-- What one step shows of the state after it. -/
def stepShows (s : State) {α : Type} (view : State → α) : Option α := (after (step s)).map view

/-! ## Well-formedness -/

theorem test_wf_refuses_lda_implied : pairWf .lda .implied = false := by decide
theorem test_wf_refuses_tax_immediate : pairWf .tax .immediate = false := by decide
theorem test_wf_admits_sta_immediate : pairWf .sta .immediate = true := by decide
theorem test_table_refuses_ill_formed_pair : tableWf [⟨0xA9, .lda, .implied⟩] = false := by decide
theorem test_table_refuses_opcode_twice :
    tableWf [⟨0xA9, .lda, .immediate⟩, ⟨0xAA, .tax, .implied⟩, ⟨0xA9, .ldx, .immediate⟩] = false := by decide
theorem test_table_defect_names_the_entry :
    [tableDefect [⟨0xAA, .tax, .implied⟩, ⟨0xA9, .lda, .implied⟩], tableDefect [⟨0xAA, .tax, .immediate⟩],
      tableDefect [⟨0xA9, .lda, .immediate⟩, ⟨0xA9, .ldx, .immediate⟩], tableDefect optable] =
    [some (.invalidAddressingMode ⟨0xA9, .lda, .implied⟩), some (.operandUnused ⟨0xAA, .tax, .immediate⟩),
      some (.opcodeListedTwice ⟨0xA9, .lda, .immediate⟩), none] := by decide
theorem test_image_refuses_32769_bytes : imageWf (List.replicate 0x8001 0xEA) = false := by
  rw [imageWf, List.length_replicate]
  decide
theorem test_image_admits_32768_bytes : imageWf (List.replicate 0x8000 0xEA) = true := by
  rw [imageWf, List.length_replicate]
  decide
theorem test_stack_base_refuses_0200 : Config.stackBaseAdmitted 0x0200 = false := by decide
theorem test_memory_refuses_zero_cell : Memory.wf [(3, 0x00)] = false := by decide
theorem test_memory_refuses_falling_addresses : Memory.wf [(4, 0x01), (3, 0x01)] = false := by decide
theorem test_memory_refuses_address_past_the_space : Memory.wf [(65536, 0x01)] = false := by decide

/-! ## Decoding, each word from 30_encoding.md R51 and R53, its first byte lowest -/

theorem test_decode_brk : decodeTableWord 8 0b00000000 = some .brk := by decide
theorem test_decode_jsrAbs : decodeTableWord 24 0b00010010_00110100_00100000 = some (.jsrAbs 0x1234) := by decide
theorem test_decode_jmpAbs : decodeTableWord 24 0b10000000_00010010_01001100 = some (.jmpAbs 0x8012) := by decide
theorem test_decode_rts : decodeTableWord 8 0b01100000 = some .rts := by decide
theorem test_decode_jmpInd : decodeTableWord 16 0b00100000_01101100 = some (.jmpInd 0x20) := by decide
theorem test_decode_staIndX : decodeTableWord 16 0b00100000_10000001 = some (.staIndX 0x20) := by decide
theorem test_decode_styZp : decodeTableWord 16 0b00010000_10000100 = some (.styZp 0x10) := by decide
theorem test_decode_staZp : decodeTableWord 16 0b00010000_10000101 = some (.staZp 0x10) := by decide
theorem test_decode_stxZp : decodeTableWord 16 0b00010000_10000110 = some (.stxZp 0x10) := by decide
theorem test_decode_txa : decodeTableWord 8 0b10001010 = some .txa := by decide
theorem test_decode_styAbs : decodeTableWord 24 0b11111111_11111100_10001100 = some (.styAbs 0xFFFC) := by decide
theorem test_decode_staAbs : decodeTableWord 24 0b00000010_00000000_10001101 = some (.staAbs 0x0200) := by decide
theorem test_decode_stxAbs : decodeTableWord 24 0b10000000_00000001_10001110 = some (.stxAbs 0x8001) := by decide
theorem test_decode_staIndY : decodeTableWord 16 0b00000001_10010001 = some (.staIndY 0x01) := by decide
theorem test_decode_styZpX : decodeTableWord 16 0b11110000_10010100 = some (.styZpX 0xF0) := by decide
theorem test_decode_staZpX : decodeTableWord 16 0b11111111_10010101 = some (.staZpX 0xFF) := by decide
theorem test_decode_stxZpY : decodeTableWord 16 0b11111111_10010110 = some (.stxZpY 0xFF) := by decide
theorem test_decode_staAbsY : decodeTableWord 24 0b00000001_11111111_10011001 = some (.staAbsY 0x01FF) := by decide
theorem test_decode_staAbsX : decodeTableWord 24 0b11111111_11111111_10011101 = some (.staAbsX 0xFFFF) := by decide
theorem test_decode_ldyImm : decodeTableWord 16 0b00000001_10100000 = some (.ldyImm 0x01) := by decide
theorem test_decode_ldaIndX : decodeTableWord 16 0b11111110_10100001 = some (.ldaIndX 0xFE) := by decide
theorem test_decode_ldxImm : decodeTableWord 16 0b00001001_10100010 = some (.ldxImm 0x09) := by decide
theorem test_decode_ldyZp : decodeTableWord 16 0b00011001_10100100 = some (.ldyZp 0x19) := by decide
theorem test_decode_ldaZp : decodeTableWord 16 0b00010000_10100101 = some (.ldaZp 0x10) := by decide
theorem test_decode_ldxZp : decodeTableWord 16 0b00000000_10100110 = some (.ldxZp 0x00) := by decide
theorem test_decode_ldaImm : decodeTableWord 16 0b11000000_10101001 = some (.ldaImm 0xC0) := by decide
theorem test_decode_tax : decodeTableWord 8 0b10101010 = some .tax := by decide
theorem test_decode_ldyAbs : decodeTableWord 24 0b11111111_11111110_10101100 = some (.ldyAbs 0xFFFE) := by decide
theorem test_decode_ldaAbs : decodeTableWord 24 0b00010010_00110100_10101101 = some (.ldaAbs 0x1234) := by decide
theorem test_decode_ldxAbs : decodeTableWord 24 0b10000000_00000000_10101110 = some (.ldxAbs 0x8000) := by decide
theorem test_decode_ldaIndY : decodeTableWord 16 0b11111111_10110001 = some (.ldaIndY 0xFF) := by decide
theorem test_decode_ldyZpX : decodeTableWord 16 0b10000000_10110100 = some (.ldyZpX 0x80) := by decide
theorem test_decode_ldaZpX : decodeTableWord 16 0b11111111_10110101 = some (.ldaZpX 0xFF) := by decide
theorem test_decode_ldxZpY : decodeTableWord 16 0b11110000_10110110 = some (.ldxZpY 0xF0) := by decide
theorem test_decode_ldaAbsY : decodeTableWord 24 0b00010010_11110000_10111001 = some (.ldaAbsY 0x12F0) := by decide
theorem test_decode_ldyAbsX : decodeTableWord 24 0b00000010_00000000_10111100 = some (.ldyAbsX 0x0200) := by decide
theorem test_decode_ldaAbsX : decodeTableWord 24 0b11111111_11111111_10111101 = some (.ldaAbsX 0xFFFF) := by decide
theorem test_decode_ldxAbsY : decodeTableWord 24 0b00000010_00000000_10111110 = some (.ldxAbsY 0x0200) := by decide
theorem test_decode_inx : decodeTableWord 8 0b11101000 = some .inx := by decide
theorem test_decode_refuses_69 : decodeBytes [0x69, 0x01] = .rejected (.unsupportedOpcode 0x69) := by decide
theorem test_decode_refuses_short_list : decodeBytes [0xAD, 0x34] = .rejected (.truncated 0xAD) := by decide
theorem test_decode_refuses_no_bytes : decodeBytes [] = .rejected .noBytes := by decide

/-! ## Flags (95_test_vectors.md 2.1) -/

theorem test_setZN_from_reset :
    [0x00, 0x01, 0x7F, 0x80, 0xFF].map (setZN 0x00) = [0x02, 0x00, 0x00, 0x80, 0x80] := by decide
theorem test_setZN_keeps_unnamed_bits : [setZN 0x7D 0x00, setZN 0x7D 0x80, setZN 0xFF 0x01] = [0x7F, 0xFD, 0x7D] := by
  decide

/-! ## Single steps (95_test_vectors.md 2.3 to 2.8) -/

theorem test_L1_ldaImm :
    stepShows { base 0x8000 [(0x8000, 0xA9)] with a := 0x55, p := 0x80 }
      (fun t => (t.a, t.p, t.pc)) = some (0x00, 0x02, 0x8002) := by decide
theorem test_L18_ldaImm_wraps :
    stepShows (base 0xFFFF [(0x0, 0x07), (0xffff, 0xA9)])
      (fun t => (t.a, t.p, t.pc)) = some (0x07, 0x00, 0x0001) := by decide
theorem test_L4_ldaZp :
    stepShows (base 0x8000 [(0x10, 0xAB), (0x8000, 0xA5), (0x8001, 0x10)])
      (fun t => (t.a, t.p, t.pc)) = some (0xAB, 0x80, 0x8002) := by decide
theorem test_L5_ldaZpX :
    stepShows { base 0x8000 [(0x1, 0x42), (0x101, 0x99), (0x8000, 0xB5), (0x8001, 0xFF)] with x := 0x02 }
      (fun t => (t.a, t.p, t.pc)) = some (0x42, 0x00, 0x8002) := by decide
theorem test_L17_ldaAbs :
    stepShows (base 0xFFFE [(0x0, 0x12), (0x1234, 0x44), (0xfffe, 0xAD), (0xffff, 0x34)])
      (fun t => (t.a, t.p, t.pc)) = some (0x44, 0x00, 0x0001) := by decide
theorem test_L8_ldaAbsX :
    stepShows { base 0x8000 [(0x0, 0x5A), (0x8000, 0xBD), (0x8001, 0xFF), (0x8002, 0xFF)] with x := 0x01 }
      (fun t => (t.a, t.p, t.pc)) = some (0x5A, 0x00, 0x8003) := by decide
theorem test_L9_ldaAbsY :
    stepShows { base 0x8000 [(0x1310, 0xFE), (0x8000, 0xB9), (0x8001, 0xF0), (0x8002, 0x12)] with y := 0x20 }
      (fun t => (t.a, t.p, t.pc)) = some (0xFE, 0x80, 0x8003) := by decide
theorem test_L10_ldaIndX :
    stepShows { base 0x8000 [(0x0, 0x12), (0xff, 0x34), (0x100, 0x99), (0x1234, 0x66), (0x8000, 0xA1), (0x8001, 0xFE), (0x9934, 0x11)] with x := 0x01 }
      (fun t => (t.a, t.p, t.pc)) = some (0x66, 0x00, 0x8002) := by decide
theorem test_L11_ldaIndY :
    stepShows { base 0x8000 [(0x0, 0xFF), (0x1, 0xB1), (0xff, 0xFF), (0x8000, 0xB1), (0x8001, 0xFF)] with y := 0x02 }
      (fun t => (t.a, t.p, t.pc)) = some (0xB1, 0x80, 0x8002) := by decide
theorem test_L12_ldxImm :
    stepShows (base 0x8000 [(0x8000, 0xA2), (0x8001, 0x80)])
      (fun t => (t.x, t.p, t.pc)) = some (0x80, 0x80, 0x8002) := by decide
theorem test_L19_ldxZp :
    stepShows (base 0x8000 [(0x0, 0xFF), (0x8000, 0xA6)])
      (fun t => (t.x, t.p, t.pc)) = some (0xFF, 0x80, 0x8002) := by decide
theorem test_L6_ldxZpY :
    stepShows { base 0x8000 [(0x110, 0x77), (0x8000, 0xB6), (0x8001, 0xF0)] with y := 0x20 }
      (fun t => (t.x, t.p, t.pc)) = some (0x00, 0x02, 0x8002) := by decide
theorem test_L20_ldxAbs :
    stepShows (base 0x8000 [(0x8000, 0xAE), (0x8002, 0x80)])
      (fun t => (t.x, t.p, t.pc)) = some (0xAE, 0x80, 0x8003) := by decide
theorem test_L14_ldxAbsY :
    stepShows { base 0x8000 [(0x2ff, 0x10), (0x8000, 0xBE), (0x8002, 0x02)] with y := 0xFF }
      (fun t => (t.x, t.p, t.pc)) = some (0x10, 0x00, 0x8003) := by decide
theorem test_L13_ldyImm :
    stepShows { base 0x8000 [(0x8000, 0xA0)] with y := 0x05 }
      (fun t => (t.y, t.p, t.pc)) = some (0x00, 0x02, 0x8002) := by decide
theorem test_L21_ldyZp :
    stepShows (base 0x8000 [(0x2, 0x01), (0x8000, 0xA4), (0x8001, 0x02)])
      (fun t => (t.y, t.p, t.pc)) = some (0x01, 0x00, 0x8002) := by decide
theorem test_L16_ldyZpX :
    stepShows { base 0x8000 [(0x0, 0x33), (0x8000, 0xB4), (0x8001, 0x80)] with x := 0x80 }
      (fun t => (t.y, t.p, t.pc)) = some (0x33, 0x00, 0x8002) := by decide
theorem test_L22_ldyAbs :
    stepShows (base 0x8000 [(0x8000, 0xAC), (0x8001, 0xFF), (0x8002, 0xFF), (0xffff, 0x80)])
      (fun t => (t.y, t.p, t.pc)) = some (0x80, 0x80, 0x8003) := by decide
theorem test_L15_ldyAbsX :
    stepShows { base 0x8000 [(0x210, 0x90), (0x8000, 0xBC), (0x8002, 0x02)] with x := 0x10 }
      (fun t => (t.y, t.p, t.pc)) = some (0x90, 0x80, 0x8003) := by decide
theorem test_S1v_staZp :
    stepShows { base 0x8000 [(0x10, 0x66), (0x8000, 0x85), (0x8001, 0x10)] with a := 0x00, p := 0x80 }
      (fun t => (t.p, t.pc, t.busRead 0x0010)) = some (0x80, 0x8002, 0x00) := by decide
theorem test_S2v_staZpX :
    stepShows { base 0x8000 [(0x8000, 0x95), (0x8001, 0xFF)] with a := 0x12, x := 0x01 }
      (fun t => (t.p, t.pc, t.busRead 0x0000, t.busRead 0x0100)) = some (0x00, 0x8002, 0x12, 0x00) := by decide
theorem test_S3v_staAbs :
    stepShows { base 0x8000 [(0x8000, 0x8D), (0x8002, 0x02)] with a := 0x80 }
      (fun t => (t.p, t.pc, t.busRead 0x0200)) = some (0x00, 0x8003, 0x80) := by decide
theorem test_S4v_staAbsX :
    stepShows { base 0x8000 [(0x8000, 0x9D), (0x8001, 0xFF), (0x8002, 0xFF)] with a := 0x3C, x := 0x02 }
      (fun t => (t.p, t.pc, t.busRead 0x0001)) = some (0x00, 0x8003, 0x3C) := by decide
theorem test_S5v_staAbsY :
    stepShows { base 0x8000 [(0x8000, 0x99), (0x8001, 0xFF), (0x8002, 0x01)] with a := 0x3D, y := 0x01 }
      (fun t => (t.p, t.pc, t.busRead 0x0200)) = some (0x00, 0x8003, 0x3D) := by decide
theorem test_S6v_staIndX :
    stepShows { base 0x8000 [(0x25, 0x03), (0x8000, 0x81), (0x8001, 0x20)] with a := 0x3E, x := 0x04 }
      (fun t => (t.p, t.pc, t.busRead 0x0300)) = some (0x00, 0x8002, 0x3E) := by decide
theorem test_S7v_staIndY :
    stepShows { base 0x8000 [(0x1, 0x03), (0x2, 0x07), (0x8000, 0x91), (0x8001, 0x01)] with a := 0xFF, y := 0x01, p := 0x80 }
      (fun t => (t.p, t.pc, t.busRead 0x0704, t.busRead 0x0705)) = some (0x80, 0x8002, 0xFF, 0x00) := by decide
theorem test_S14v_staIndY_own_pointer :
    stepShows { base 0x8000 [(0x8000, 0x91)] with a := 0x77 }
      (fun t => (t.p, t.pc, t.busRead 0x0000)) = some (0x00, 0x8002, 0x77) := by decide
theorem test_S8v_stxZp :
    stepShows { base 0x8000 [(0x8000, 0x86), (0x8001, 0x10)] with x := 0x99 }
      (fun t => (t.p, t.pc, t.busRead 0x0010)) = some (0x00, 0x8002, 0x99) := by decide
theorem test_S9v_stxZpY :
    stepShows { base 0x8000 [(0x8000, 0x96), (0x8001, 0xFF)] with x := 0x98, y := 0xFF }
      (fun t => (t.p, t.pc, t.busRead 0x00FE)) = some (0x00, 0x8002, 0x98) := by decide
theorem test_S10v_stxAbs_own_operand :
    stepShows { base 0x8000 [(0x8000, 0x8E), (0x8001, 0x01), (0x8002, 0x80)] with x := 0xEA }
      (fun t => (t.p, t.pc, t.busRead 0x8001)) = some (0x00, 0x8003, 0xEA) := by decide
theorem test_S11v_styZp :
    stepShows { base 0x8000 [(0x8000, 0x84), (0x8001, 0x10)] with y := 0x01 }
      (fun t => (t.p, t.pc, t.busRead 0x0010)) = some (0x00, 0x8002, 0x01) := by decide
theorem test_S12v_styZpX :
    stepShows { base 0x8000 [(0x8000, 0x94), (0x8001, 0x10)] with y := 0x02, x := 0xF0 }
      (fun t => (t.p, t.pc, t.busRead 0x0000)) = some (0x00, 0x8002, 0x02) := by decide
theorem test_S13v_styAbs :
    stepShows { base 0x8000 [(0x8000, 0x8C), (0x8001, 0xFC), (0x8002, 0xFF)] with y := 0x34 }
      (fun t => (t.p, t.pc, t.busRead 0xFFFC)) = some (0x00, 0x8003, 0x34) := by decide
theorem test_T1_tax :
    stepShows { base 0x8000 [(0x8000, 0xAA)] with x := 0x55 }
      (fun t => (t.a, t.x, t.p, t.pc)) = some (0x00, 0x00, 0x02, 0x8001) := by decide
theorem test_T3_txa :
    stepShows { base 0x8000 [(0x8000, 0x8A)] with x := 0x7F, a := 0x80, p := 0x80 }
      (fun t => (t.a, t.x, t.p, t.pc)) = some (0x7F, 0x7F, 0x00, 0x8001) := by decide
theorem test_T6_inx :
    stepShows { base 0x8000 [(0x8000, 0xE8)] with x := 0xFF, p := 0x80 }
      (fun t => (t.x, t.p, t.pc)) = some (0x00, 0x02, 0x8001) := by decide
theorem test_T9_inx_wraps_pc :
    stepShows { base 0xFFFF [(0xffff, 0xE8)] with x := 0x01 }
      (fun t => (t.x, t.p, t.pc)) = some (0x02, 0x00, 0x0000) := by decide
theorem test_J1_jmpAbs :
    stepShows (base 0x8000 [(0x8000, 0x4C), (0x8002, 0x90)])
      (fun t => (t.sp, t.pc)) = some (0xFF, 0x9000) := by decide
theorem test_J4_jmpInd :
    stepShows (base 0x8000 [(0x0, 0x12), (0xff, 0x34), (0x100, 0x56), (0x8000, 0x6C), (0x8001, 0xFF)])
      (fun t => (t.sp, t.pc)) = some (0xFF, 0x1234) := by decide
theorem test_J6_jsr :
    stepShows { base 0x8000 [(0x8000, 0x20), (0x8001, 0x06), (0x8002, 0x90)] with sp := 0x00 }
      (fun t => (t.sp, t.pc, t.busRead 0x0100, t.busRead 0x01FF)) = some (0xFE, 0x9006, 0x80, 0x02) := by decide
theorem test_J16_jsr_own_operand :
    stepShows (base 0x01FD [(0x1fd, 0x20), (0x1ff, 0x90)])
      (fun t => (t.sp, t.pc, t.busRead 0x01FF, t.busRead 0x01FE)) = some (0xFD, 0x9000, 0x01, 0xFF) := by decide
theorem test_J12_rts :
    stepShows { base 0x8000 [(0x100, 0x20), (0x1ff, 0x10), (0x8000, 0x60)] with sp := 0xFE }
      (fun t => (t.sp, t.pc)) = some (0x00, 0x2011) := by decide
theorem test_J11_rts_wraps :
    stepShows { base 0x8000 [(0x100, 0xFF), (0x101, 0xFF), (0x8000, 0x60)] with sp := 0xFF }
      (fun t => (t.sp, t.pc)) = some (0x01, 0x0000) := by decide
theorem test_H1_brk :
    stepShows { base 0x8000 [] with a := 0x01, x := 0x02, y := 0x03, p := 0x80, sp := 0x12 } id =
      some { base 0x8001 [] with a := 0x01, x := 0x02, y := 0x03, p := 0x80, sp := 0x12, run := .halted } := by decide
theorem test_H2_brk_wraps : stepShows (base 0xFFFF []) (fun t => (t.run, t.pc)) = some (.halted, 0x0000) := by decide
theorem test_F1_unsupported :
    stepShows { base 0x8000 [(0x8000, 0xEA)] with a := 0x01 } id =
      some { base 0x8001 [(0x8000, 0xEA)] with a := 0x01, run := .faulted (.unsupportedOpcode 0xEA 0x8000) } := by decide
theorem test_F2_unsupported_wraps :
    stepShows (base 0xFFFF [(0xFFFF, 0xFF)]) (fun t => (t.run, t.pc)) =
      some (.faulted (.unsupportedOpcode 0xFF 0xFFFF), 0x0000) := by decide

/-! ## Parameters and host operations (95_test_vectors.md 2.7, 2.10) -/

/-- J14: with STACK_BASE = 0x0000 the return address lies in the zero page. -/
theorem test_J14_jsr_base_zero :
    (after (stepWith ⟨0x0000, optable⟩ (base 0x8000 [(0x8000, 0x20), (0x8001, 0x06), (0x8002, 0x90)]))).map
      (fun t => (t.busRead 0x00FF, t.busRead 0x00FE, t.sp, t.pc)) = some (0x80, 0x02, 0xFD, 0x9006) := by decide

/-- A well-formed table may pair STA with Immediate: the store writes over its own operand byte (R57, R61). -/
theorem test_sta_immediate_under_another_table :
    (after (stepWith ⟨0x0100, [⟨0x89, .sta, .immediate⟩]⟩ { base 0x8000 [(0x8000, 0x89), (0x8001, 0x01)] with a := 0x33 })).map
      (fun t => (t.busRead 0x8001, t.pc)) = some (0x33, 0x8002) := by decide

/-- The bus order of R44 for STA ($01),Y: opcode, operand, pointer low, pointer high, then the write. -/
theorem test_bus_trace_staIndY :
    busTrace defaultParams
        { base 0x8000 [(1, 0x03), (2, 0x07), (0x8000, 0x91), (0x8001, 0x01)] with a := 0xFF, y := 0x01 } =
      [.read 0x8000 0x91, .read 0x8001 0x01, .read 0x0001 0x03, .read 0x0002 0x07, .write 0x0704 0xFF] := by decide

/-- LDA paired with Implied: the core is refused, and no address is read in place of the missing one (R71, R102). -/
theorem test_lda_implied_is_refused_without_a_read (s : State) :
    stepWith ⟨0x0100, [⟨0xA9, .lda, .implied⟩]⟩ s = .refused (.illFormedTable (.invalidAddressingMode ⟨0xA9, .lda, .implied⟩)) ∧
      busTrace ⟨0x0100, [⟨0xA9, .lda, .implied⟩]⟩ s = [] ∧ dataEvents 0x0100 .lda .implied s = [] := ⟨rfl, rfl, rfl⟩

def anyRegs : PowerOnRegs := ⟨0x11, 0x22, 0x33, 0x44, 0x55, 0x6666⟩

theorem test_load_then_reset :
    (match load [0xA9, 0x05, 0x00] (construct anyRegs) with
      | .loaded s => some (resetCore s)
      | .programTooLarge _ => none) =
      some (base 0x8000 [(0x8000, 0xA9), (0x8001, 0x05), (0xFFFD, 0x80)]) := by decide
theorem test_load_of_empty_image :
    load [] (construct anyRegs) = .loaded { construct anyRegs with mem := [(0xFFFD, 0x80)] } := by decide
theorem test_load_refuses_32769_bytes (s : State) : load (List.replicate 0x8001 0xEA) s = .programTooLarge 0x8001 := by
  rw [load, test_image_refuses_32769_bytes, List.length_replicate]
  rfl
theorem test_reset_reads_vector :
    (resetCore { base 0x0000 [(0xFFFC, 0x34), (0xFFFD, 0x12)] with run := .faulted (.unsupportedOpcode 0x02 0x8002) }).pc =
      0x1234 := by decide
theorem test_no_registers_before_reset : inspectRegisters (construct anyRegs) = none := by decide

/-- With nothing loaded, the first step after reset runs the 0x00 at address 0 as BRK (R124). -/
theorem test_reset_state_halts : stepShows State.reset (fun t => (t.run, t.pc)) = some (.halted, 0x0001) := by decide
theorem test_placed_word_runs :
    stepShows (State.reset.withFetchWord 16 0x05A9) (fun t => (t.a, t.pc)) = some (0x05, 0x0002) := by decide

/-! ## Witnesses: for each statement with hypotheses, data that meet them -/

/-- LDA #$05 at 0x8000. -/
def ldaState : State := base 0x8000 [(0x8000, 0xA9), (0x8001, 0x05)]

/-- JSR $9006 at 0x8000, an RTS at its target. -/
def jsrState : State := base 0x8000 [(0x8000, 0x20), (0x8001, 0x06), (0x8002, 0x90), (0x9006, 0x60)]

/-- STA $8003 at 0x8000, A = 0xEA: it stores an unsupported byte where the next instruction stands. -/
def staState : State := { base 0x8000 [(0x8000, 0x8D), (0x8001, 0x03), (0x8002, 0x80)] with a := 0xEA }

/-- JMP $8000 at 0x8000. -/
def jmpState : State := base 0x8000 [(0x8000, 0x4C), (0x8002, 0x80)]

/-- An unsupported byte at 0x8000. -/
def badState : State := base 0x8000 [(0x8000, 0xEA)]

theorem witness_EncodeOfDecode : decodeBytes [0xAD, 0xFF, 0x00, 0x07] = .accepted (.ldaAbs 0x00FF) [0x07] := by decide
theorem witness_OperandSizes :
    (∃ t, exec (.staAbs 0xFFFF) ldaState = .next t) ∧ Instr.mnemonic (.staAbs 0xFFFF) ∉ [.jmp, .jsr, .rts] :=
  ⟨⟨_, rfl⟩, by decide⟩
theorem witness_StepRunsDecodedInstruction :
    ldaState.run = .running ∧
      decodeBytes [ldaState.busRead ldaState.pc, ldaState.busRead (ldaState.pc + 1), ldaState.busRead (ldaState.pc + 2)] =
        .accepted (.ldaImm 0x05) [0x00] := by decide
theorem witness_UnsupportedOpcodeFaultsTheCore :
    badState.run = .running ∧ lookup optable (badState.busRead badState.pc) = none := by decide
theorem witness_StoppedCoreStaysAsItIs :
    ({ ldaState with run := .halted } : State).run ≠ .running ∧ (construct anyRegs).run ≠ .running ∧
      ({ badState with run := .faulted (.unsupportedOpcode 0xEA 0x8000) } : State).run ≠ .running := by decide
theorem witness_RunStateTransitions :
    (∃ t, step State.reset = .next t) ∧ (∃ t, step badState = .next t) ∧ ∃ t, step ldaState = .next t :=
  ⟨⟨_, rfl⟩, ⟨_, rfl⟩, ⟨_, rfl⟩⟩
theorem witness_IllFormedParametersAreRefused :
    tableWf (Params.optable ⟨0x0100, [⟨0xAA, .tax, .immediate⟩]⟩) = false ∧ tableWf (Params.optable ⟨0x0200, optable⟩) = true ∧
      Config.stackBaseAdmitted (Params.stackBase ⟨0x0200, optable⟩) = false := by decide
theorem witness_OutcomeOfEachMnemonic :
    (∃ h, execAny 0x0100 .lda .indirectY ldaState = some h) ∧ (∃ h, execAny 0x0000 .jsr .absolute jsrState = some h) ∧
      (∃ h, execAny 0x0100 .rts .implied jsrState = some h) ∧ ∃ h, execAny 0x0100 .brk .implied ldaState = some h :=
  ⟨⟨_, rfl⟩, ⟨_, rfl⟩, ⟨_, rfl⟩, ⟨_, rfl⟩⟩
theorem witness_OutcomeOfEachMnemonic_step :
    tableWf (Params.optable ⟨0x0000, optable⟩) = true ∧ Config.stackBaseAdmitted (Params.stackBase ⟨0x0000, optable⟩) = true ∧
      jsrState.run = .running ∧ lookup optable (jsrState.busRead jsrState.pc) = some (.jsr, .absolute) ∧
      (execAny 0x0000 .jsr .absolute jsrState.pastOpcode).isSome = true := by decide
theorem witness_PlacedWordIsRunNext : decodeTableWord 24 0xFFFFBD = some (.ldaAbsX 0xFFFF) := by decide
theorem witness_EffectiveAddresses :
    ea .zeroPage (base 0x8001 [(0x8001, 0xFF)]) = some 0x00FF ∧
      ea .zeroPageX { base 0x8001 [(0x8001, 0xFF)] with x := 0x02 } = some 0x0001 ∧
      ea .zeroPageY { base 0x8001 [(0x8001, 0xFF)] with y := 0xFF } = some 0x00FE := by decide
theorem witness_PointerEffectiveAddresses : (base 0x8001 [(0x8001, 0xFF)]).busRead 0x8001 = 0xFF := by decide
theorem witness_JsrUsesOperandAsFetched :
    jsrState.run = .running ∧ jsrState.busRead jsrState.pc = 0x20 ∧
      (base 0x01FD [(0x01FD, 0x20), (0x01FF, 0x90)]).busRead 0x01FD = 0x20 := by decide
theorem witness_FlagRule : (∃ t, exec .inx ldaState = .next t) ∧ ∃ t, exec .rts ldaState = .next t :=
  ⟨⟨_, rfl⟩, ⟨_, rfl⟩⟩
theorem witness_InstructionFrame :
    (∃ t, exec (.staIndY 0xFF) ldaState = .next t) ∧ (∃ t, exec (.jsrAbs 0x01FF) ldaState = .next t) ∧
      ∃ t, exec .brk ldaState = .next t :=
  ⟨⟨_, rfl⟩, ⟨_, rfl⟩, ⟨_, rfl⟩⟩
/-- Each register, P and a cell of memory does change in some step. -/
theorem witness_OnlyListedWritersChangeState :
    stepShows ldaState (fun t => t.a) = some 0x05 ∧
      stepShows (base 0x8000 [(0x8000, 0xE8)]) (fun t => t.x) = some 0x01 ∧
      stepShows (base 0x8000 [(0x8000, 0xA0), (0x8001, 0x80)]) (fun t => (t.y, t.p)) = some (0x80, 0x80) ∧
      stepShows jsrState (fun t => (t.sp, t.busRead 0x01FF)) = some (0xFD, 0x80) := by decide
theorem witness_RegistersReadOnlyWhereListed :
    (∃ t, exec (.ldaZpX 0x10) ldaState = .next t) ∧ (∃ t, exec (.staAbsY 0xFFFF) ldaState = .next t) ∧
      (∃ t, exec (.ldyImm 0x00) ldaState = .next t) ∧ ∃ t, exec (.jmpInd 0xFF) ldaState = .next t :=
  ⟨⟨_, rfl⟩, ⟨_, rfl⟩, ⟨_, rfl⟩, ⟨_, rfl⟩⟩
theorem witness_CanonicalMemoryIsDeterminedByReads :
    Memory.wf [(0, 0x01), (65535, 0xFF)] = true ∧
      ∀ k, k < 65536 → Memory.get [(0, 0x01), (65535, 0xFF)] k = Memory.get [(0, 0x01), (65535, 0xFF)] k :=
  ⟨by decide, fun _ _ => rfl⟩
theorem witness_CallAndReturnRoundTrip :
    jsrState.run = .running ∧ jsrState.busRead jsrState.pc = 0x20 ∧
      ∃ t, step jsrState = .next t ∧ t.busRead t.pc = 0x60 :=
  ⟨by decide, by decide, _, rfl, by decide⟩
theorem witness_StackBaseZeroPushesIntoZeroPage : jsrState.run = .running ∧ jsrState.busRead jsrState.pc = 0x20 := by decide
theorem witness_StoreIsSeenByNextFetch :
    staState.run = .running ∧ staState.fetch = some (.staAbs (staState.pc + 3)) ∧ lookup optable staState.a = none ∧
      ∃ t, step staState = .next t :=
  ⟨by decide, by decide, by decide, _, rfl⟩
theorem witness_BusTraceAccountsForMemory : ∃ t, step jsrState = .next t := ⟨_, rfl⟩
theorem witness_BusTraceUnderAnyParameters :
    (∃ t, stepWith ⟨0x0000, [⟨0x20, .jsr, .indirectX⟩]⟩ jsrState = .next t) ∧
      ∀ t, stepWith ⟨0x0100, [⟨0xA9, .lda, .implied⟩]⟩ ldaState ≠ .next t :=
  ⟨⟨_, rfl⟩, fun _ h => nomatch h⟩
theorem witness_StepKeepsInv : Inv jsrState ∧ ∃ t, step jsrState = .next t := ⟨⟨by decide, by decide⟩, _, rfl⟩
theorem witness_EveryMoveKeepsLegal :
    Legal jsrState ∧ (∃ t, step jsrState = .next t) ∧ ∃ t, load [0xEA] jsrState = .loaded t :=
  ⟨⟨by decide, fun _ => by decide, nofun⟩, ⟨_, rfl⟩, ⟨_, rfl⟩⟩
/-- A core that was constructed, reset and stepped is Halted; it is one of the reachable states. -/
theorem witness_ReachableStatesAreLegal :
    ∃ s, Reachable s ∧ s.run = .halted :=
  ⟨_, .step (.reset (.construct anyRegs)) rfl, rfl⟩
theorem witness_ReachableStatesAreLegal_faulted :
    ∃ s op loc, Reachable s ∧ s.run = .faulted (.unsupportedOpcode op loc) :=
  ⟨_, 0xEA, 0x8000, .step (.reset (.load [0xEA] (.construct anyRegs) rfl)) rfl, by decide⟩
theorem witness_LoadEffect :
    (List.replicate 0x8000 (0xEA : Byte)).length ≤ 0x8000 ∧ ([] : List Byte).length ≤ 0x8000 ∧
      ¬ inVector (0x8000 + BitVec.ofNat 16 0x7FFF) := by
  refine ⟨Nat.le_of_eq List.length_replicate, by decide, ?_⟩
  unfold inVector
  decide
theorem witness_TooLargeImageIsRefused :
    0x8000 < (List.replicate 0x8001 (0xEA : Byte)).length ∧ (List.replicate 0x8000 (0xEA : Byte)).length ≤ 0x8000 := by
  rw [List.length_replicate, List.length_replicate]
  decide
theorem witness_LaunchState : ([0xA9, 0x05, 0x00] : List Byte).length ≤ 0x8000 := by decide
/-- Two steps from the reset state: the state before the first is Running, the one after it is not. -/
theorem witness_StepRequestsAreIterationsOfRun :
    (∀ j, j < 1 → (runFor j State.reset).run = .running) ∧ (runFor 1 State.reset).run ≠ .running := by decide
theorem witness_RunReturnsOnce :
    State.reset.run = .running ∧ RunReturns State.reset { State.reset with pc := 0x0001, run := .halted } :=
  ⟨rfl, 1, by decide, by decide⟩
theorem witness_RunReturnsOnce_faulted :
    RunReturns badState { badState with pc := 0x8001, run := .faulted (.unsupportedOpcode 0xEA 0x8000) } :=
  ⟨1, by decide, by decide⟩
theorem witness_JmpToItselfNeverReturns :
    jmpState.run = .running ∧ jmpState.fetch = some (.jmpAbs jmpState.pc) := by decide
theorem witness_PowerOnIsLeftOnlyByReset :
    (construct anyRegs).run = .powerOn ∧ (∃ t, step ldaState = .next t) ∧
      ∃ t, load [0xEA] (construct anyRegs) = .loaded t :=
  ⟨rfl, ⟨_, rfl⟩, ⟨_, rfl⟩⟩

end Sys2Proof.Tests
end

section
/-! PROOFS. The status register and reset (10_state.md R18, R21). -/

open Sys2Proof Sys2Proof.Claims

namespace Sys2Proof.Machine

/-! ## SetZN, bit by bit -/

/-- Z after SetZN says whether the value was 0 (R18). -/
theorem zFlag_setZN (p v : Byte) : zFlag (setZN p v) = (v == 0) := by
  by_cases hv : v = 0#8 <;> simp [zFlag, setZN, hv]

/-- N after SetZN is bit 7 of the value (R18). -/
theorem nFlag_setZN (p v : Byte) : nFlag (setZN p v) = v.getLsbD 7 := by
  by_cases hv : v = 0#8 <;> simp [nFlag, setZN, hv]

/-- A bit other than Z (bit 1) and N (bit 7) is in the mask of kept bits and in neither flag's mask (R18). -/
theorem getLsbD_setZN_of_ne (p v : Byte) {k : Nat} (hz : k ≠ 1) (hn : k ≠ 7) :
    (setZN p v).getLsbD k = p.getLsbD k := by
  have hmasks : ∀ j < 8, j ≠ 1 → j ≠ 7 →
      (0x7D#8).getLsbD j = true ∧ (0x02#8).getLsbD j = false ∧ (0x80#8).getLsbD j = false := by decide
  by_cases hk : k < 8
  · obtain ⟨hkeep, hzero, hneg⟩ := hmasks k hk hz hn
    by_cases hv : v = 0#8 <;> simp [setZN, hv, hkeep, hzero, hneg]
  · rw [BitVec.getLsbD_of_ge _ k (by omega), BitVec.getLsbD_of_ge _ k (by omega)]

/-! ## Which handler an instruction runs

The instructions that end with SetZN all come down to one of three handlers, by their destination register:
TXA is a load of X into A, and TAX and INX are loads into X. -/

section

variable {i : Instr} {s t : State}

theorem exec_of_destination_a (hm : i.mnemonic ∈ [.lda, .txa]) (h : exec i s = .next t) :
    ∃ size v, t = finish size (loadA v s.pastOpcode) := by
  cases i with
  | ldaImm | ldaZp | ldaZpX | ldaAbs | ldaAbsX | ldaAbsY | ldaIndX | ldaIndY | txa =>
    cases h
    exact ⟨_, _, rfl⟩
  | _ => simp [Instr.mnemonic] at hm

theorem exec_of_destination_x (hm : i.mnemonic ∈ [.ldx, .tax, .inx]) (h : exec i s = .next t) :
    ∃ size v, t = finish size (loadX v s.pastOpcode) := by
  cases i with
  | ldxImm | ldxZp | ldxZpY | ldxAbs | ldxAbsY | tax | inx =>
    cases h
    exact ⟨_, _, rfl⟩
  | _ => simp [Instr.mnemonic] at hm

theorem exec_of_destination_y (hm : i.mnemonic = .ldy) (h : exec i s = .next t) :
    ∃ size v, t = finish size (loadY v s.pastOpcode) := by
  cases i with
  | ldyImm | ldyZp | ldyZpX | ldyAbs | ldyAbsX =>
    cases h
    exact ⟨_, _, rfl⟩
  | _ => simp [Instr.mnemonic] at hm

/-! ## P after an instruction -/

/-- R18's list by destination register. -/
theorem mem_setsFlags_iff {m : Mnemonic} :
    m ∈ setsFlags ↔ m ∈ [.lda, .txa] ∨ m ∈ [.ldx, .tax, .inx] ∨ m = .ldy := by
  cases m <;> decide

theorem produced_of_destination_a {m : Mnemonic} (hm : m ∈ [.lda, .txa]) (t : State) : produced m t = t.a := by
  cases m with
  | lda | txa => rfl
  | _ => simp at hm

theorem produced_of_destination_x {m : Mnemonic} (hm : m ∈ [.ldx, .tax, .inx]) (t : State) : produced m t = t.x := by
  cases m with
  | ldx | tax | inx => rfl
  | _ => simp at hm

theorem produced_of_destination_y {m : Mnemonic} (hm : m = .ldy) (t : State) : produced m t = t.y := by
  rw [hm, produced]

theorem exec_p_of_mem_setsFlags (hm : i.mnemonic ∈ setsFlags) (h : exec i s = .next t) :
    t.p = setZN s.p (produced i.mnemonic t) := by
  rcases mem_setsFlags_iff.mp hm with ha | hx | hy
  · obtain ⟨size, v, rfl⟩ := exec_of_destination_a ha h
    simp [produced_of_destination_a ha, loadA_eq]
  · obtain ⟨size, v, rfl⟩ := exec_of_destination_x hx h
    simp [produced_of_destination_x hx, loadX_eq]
  · obtain ⟨size, v, rfl⟩ := exec_of_destination_y hy h
    simp [produced_of_destination_y hy, loadY_eq]

/-- Stores, JMP, JSR, RTS and BRK touch memory, SP, PC and RUN only. -/
theorem exec_p_of_notMem_setsFlags (hm : i.mnemonic ∉ setsFlags) (h : exec i s = .next t) : t.p = s.p := by
  cases i with
  | staZp | staZpX | staAbs | staAbsX | staAbsY | staIndX | staIndY | stxZp | stxZpY | stxAbs | styZp | styZpX
  | styAbs | jmpAbs | jmpInd | jsrAbs | rts | brk =>
    cases h
    rfl
  | _ => simp [Instr.mnemonic, setsFlags] at hm

end

/-- Settles O30: SetZN by its three kinds of bits, and P by whether the mnemonic is one that ends with SetZN. -/
theorem flagRule : Obligations.FlagRule :=
  ⟨fun p v => ⟨zFlag_setZN p v, nFlag_setZN p v, fun _ => getLsbD_setZN_of_ne p v⟩,
    fun _ _ _ h => ⟨fun hm => exec_p_of_mem_setsFlags hm h, fun hm => exec_p_of_notMem_setsFlags hm h⟩⟩

/-! ## Reset -/

/-- The word at RESET_VECTOR has its low byte at 0xFFFC and its high byte at 0xFFFD (R21). -/
theorem read16_resetVector (s : State) :
    s.read16 Config.resetVector = word (s.busRead 0xFFFD) (s.busRead 0xFFFC) := rfl

/-- Settles O46: every field but PC is the constant `resetCore` writes, and PC is the word at RESET_VECTOR. -/
theorem resetEffect : Obligations.ResetEffect := by
  intro s
  rw [resetCore, read16_resetVector]

end Sys2Proof.Machine
end

section
/-! PROOFS. Memory: what a byte write does (20_memory.md R33). -/

namespace Sys2Proof.Machine

/-- The frame of a byte write: Mem is the only field it may change (R33). -/
theorem State.busWrite_frame (s : State) (addr : Addr) (v : Byte) :
    s.busWrite addr v = { s with mem := (s.busWrite addr v).mem } := rfl

/-- Settles O35: the written cell, every other cell, and the fields other than Mem, each by its own law of
`busWrite`. -/
theorem byteWrite : Obligations.ByteWrite := fun s addr v =>
  ⟨s.busRead_busWrite_same addr v, fun _ hne => s.busRead_busWrite_ne v hne, s.busWrite_frame addr v⟩

end Sys2Proof.Machine
end

section
/-! PROOFS. The addressing modes: what each mode's operand takes in an encoding and adds to PC, and the
effective address it gives (40_addressing_modes.md R61 to R67, R69, R71, R72). -/

open Sys2Proof Sys2Proof.Claims

namespace Sys2Proof.Machine

/-! ## OperandSize -/

/-- R72's table. -/
theorem operandSize_eq (mode : Mode) :
    operandSize mode =
      if mode = .implied then 0
      else if mode = .absolute ∨ mode = .absoluteX ∨ mode = .absoluteY then 2
      else 1 := by
  cases mode <;> rfl

theorem operandBytes_length (i : Instr) : i.operandBytes.length = (operandSize i.mode).toNat := by
  cases i <;> rfl

theorem encode_length (i : Instr) : (encode i).length = 1 + (operandSize i.mode).toNat := by
  rw [encode, List.length_cons, operandBytes_length, Nat.add_comm]

/-- An instruction that neither jumps nor halts ends with the outcome Continue: its handler leaves PC past
the opcode byte, and the dispatcher adds the OperandSize of its mode (R75, R76). -/
theorem exec_of_continues {i : Instr} {s t : State} (hm : i.mnemonic ∉ [.jmp, .jsr, .rts, .brk])
    (h : exec i s = .next t) :
    ∃ u, t = finish (operandSize i.mode) ⟨u, .cont⟩ ∧ u.pc = s.pc + 1 := by
  cases i with
  | jmpAbs | jmpInd | jsrAbs | rts | brk => simp [Instr.mnemonic] at hm
  | _ =>
    cases h
    exact ⟨_, rfl, rfl⟩

/-- Settles O6: OperandSize by mode, the length of an encoding from it, and PC from the outcome Continue. -/
theorem operandSizes : Obligations.OperandSizes := by
  refine ⟨operandSize_eq, encode_length, fun i s t h hm => ?_⟩
  obtain ⟨u, rfl, hpc⟩ := exec_of_continues hm h
  rw [finish_cont, State.setPc_pc, hpc]

/-! ## Effective addresses -/

/-- The indexed sums of the zero-page modes wrap before they are extended (R62 to R64). -/
theorem ea_zeroPage_eq_zext {mode : Mode} {s : State} {addr : Addr}
    (hmode : mode ∈ [.zeroPage, .zeroPageX, .zeroPageY]) (h : ea mode s = some addr) : ∃ b, addr = zext b := by
  cases mode with
  | zeroPage | zeroPageX | zeroPageY =>
    cases h
    exact ⟨_, rfl⟩
  | _ => simp at hmode

theorem zext_toNat_lt (b : Byte) : (zext b).toNat < 256 := by
  rw [zext_toNat]
  exact b.isLt

/-- Implied is the one mode without an effective address (R71). -/
theorem ea_eq_none_iff (mode : Mode) (s : State) : ea mode s = none ↔ mode = .implied := by
  cases mode <;> simp [ea]

/-- Settles O16: the address of each mode is what `ea` answers for it; a zero-page mode answers an extended
byte, and only Implied has no answer. -/
theorem effectiveAddresses : Obligations.EffectiveAddresses := by
  refine fun s => ⟨rfl, rfl, rfl, rfl, rfl, rfl, rfl, rfl, fun mode addr hmode h => ?_,
    fun mode => ea_eq_none_iff mode s⟩
  obtain ⟨b, rfl⟩ := ea_zeroPage_eq_zext hmode h
  exact zext_toNat_lt b

end Sys2Proof.Machine
end

section
/-! PROOFS. The dispatcher: the outcome of each mnemonic, and the step that ends with it (41_dispatch.md R75,
R76, R78). -/

open Sys2Proof Sys2Proof.Claims

namespace Sys2Proof.Machine

section

variable {base : Addr} {m : Mnemonic} {mode : Mode} {s : State} {h : Handled}

/-! ## The outcome by mnemonic -/

/-- A load, store, transfer or increment answers Continue and leaves PC for the generic advance (R76, R78). -/
theorem execAny_of_continues (hm : m ∈ [.lda, .ldx, .ldy, .sta, .stx, .sty, .tax, .txa, .inx])
    (he : execAny base m mode s = some h) : h.flow = .cont ∧ h.st.pc = s.pc := by
  cases m with
  | lda | ldx | ldy | sta | stx | sty =>
    obtain ⟨addr, -, rfl⟩ := Option.map_eq_some_iff.mp he
    exact ⟨rfl, rfl⟩
  | tax | txa | inx =>
    cases he
    exact ⟨rfl, rfl⟩
  | _ => simp at hm

/-- JMP and JSR answer with the resolved address, RTS with the popped word plus 1 (R76, R93 to R95). -/
theorem execAny_of_jumps (hm : m ∈ [.jmp, .jsr, .rts]) (he : execAny base m mode s = some h) :
    ∃ t, h.flow = .jumped t := by
  cases m with
  | jmp | jsr =>
    obtain ⟨t, -, rfl⟩ := Option.map_eq_some_iff.mp he
    exact ⟨t, rfl⟩
  | rts =>
    cases he
    exact ⟨_, rfl⟩
  | _ => simp at hm

theorem execAny_of_brk (hm : m = .brk) (he : execAny base m mode s = some h) : h.flow = .halt := by
  subst hm
  cases he
  rfl

end

/-! ## The step of a listed opcode -/

/-- On a Running core with admitted parameters, the step of a listed opcode is the dispatcher's action on the
outcome of its handler (R75). -/
theorem stepWith_of_execAny {c : Params} {m : Mnemonic} {mode : Mode} {s : State} {h : Handled}
    (hc : c.refusal = none) (hrun : s.run = .running) (hl : lookup c.optable (s.busRead s.pc) = some (m, mode))
    (he : execAny c.stackBase m mode s.pastOpcode = some h) :
    stepWith c s = .next (finish (operandSize mode) h) := by
  simp only [stepWith, hc, hrun, hl, he]

/-- Settles O14: the outcome by the three groups of mnemonics, the dispatcher's action on each outcome by the
laws of `finish`, and the step from the check of the parameters. -/
theorem outcomeOfEachMnemonic : Obligations.OutcomeOfEachMnemonic := by
  refine ⟨fun _ _ _ _ _ he => ⟨fun hm => execAny_of_continues hm he, fun hm => execAny_of_jumps hm he,
    fun hm => execAny_of_brk hm he⟩, fun mode t s => ?_, fun c _ _ _ _ hwf hbase hrun hl he => ?_⟩
  · exact ⟨finish_cont _ s, finish_jumped _ t s, finish_halt _ s⟩
  · have hc : c.refusal = none := c.refusal_eq_none_iff.mpr ⟨hwf, hbase⟩
    exact stepWith_of_execAny hc hrun hl he

end Sys2Proof.Machine
end

section
/-! PROOFS. The decoder against the encoder and the opcode table (30_encoding.md R50 to R56). -/

open Sys2Proof.Claims

namespace Sys2Proof

/-! ## What a form makes -/

/-- How many of the two bytes after the opcode byte a format uses (R51). -/
def Form.size : Form → Nat
  | .f0 _ => 0
  | .f1 _ => 1
  | .f2 _ => 2

theorem Form.size_le_two (f : Form) : f.size ≤ 2 := by
  cases f <;> simp [Form.size]

/-- An opcode byte's form makes instructions encoded as that byte and the operand bytes it was filled with. -/
theorem encode_fill {op : Byte} {f : Form} (h : form op = some f) (b1 b2 : Byte) :
    encode (f.fill b1 b2) = op :: [b1, b2].take f.size := by
  have hself : op = BitVec.ofNat 8 op.toNat := by simp
  unfold form at h
  split at h
  case h_40 => cases h
  all_goals
    rename_i hop
    rw [hop] at hself
    subst hself
    cases h
    simp [encode, Form.fill, Form.size, Instr.opcode, Instr.operandBytes]

/-- A row of the table for every instruction (R53, R57, R72). -/
theorem opcodeRow (i : Instr) : Laws.OpcodeRow.Statement i := by
  cases i <;> exact ⟨rfl, rfl, rfl⟩

theorem lookup_opcode (i : Instr) : lookup optable i.opcode = some (i.mnemonic, i.mode) := (opcodeRow i).1

/-! ## The round trip -/

theorem decodeBytes_encode (i : Instr) (rest : List Byte) : decodeBytes (encode i ++ rest) = .accepted i rest := by
  cases i with
  | brk | rts | txa | tax | inx => exact decodeBytes_f0 rest rfl
  | jmpInd b1 | staIndX b1 | styZp b1 | staZp b1 | stxZp b1 | staIndY b1 | styZpX b1 | staZpX b1 | stxZpY b1
  | ldyImm b1 | ldaIndX b1 | ldxImm b1 | ldyZp b1 | ldaZp b1 | ldxZp b1 | ldaImm b1 | ldaIndY b1 | ldyZpX b1
  | ldaZpX b1 | ldxZpY b1 => exact decodeBytes_f1 b1 rest rfl
  | jsrAbs w | jmpAbs w | styAbs w | staAbs w | stxAbs w | staAbsY w | staAbsX w | ldyAbs w | ldaAbs w
  | ldxAbs w | ldaAbsY w | ldyAbsX w | ldaAbsX w | ldxAbsY w =>
    exact (decodeBytes_f2 (loByte w) (hiByte w) rest rfl).trans (by rw [word_hiByte_loByte])

/-- Settles O1: well-formedness from the instruction's row, and the decoder run on each of the three formats. -/
theorem decodeOfEncode : Obligations.DecodeOfEncode := by
  intro i rest
  obtain ⟨-, hwf, -⟩ := opcodeRow i
  exact ⟨hwf, decodeBytes_encode i rest⟩

/-- Bytes that decode are an opcode byte, the operand bytes its form asks for, and the bytes left over. -/
theorem eq_of_decodeBytes {bytes rest : List Byte} {i : Instr} (h : decodeBytes bytes = .accepted i rest) :
    ∃ op f b1 b2, form op = some f ∧ f.fill b1 b2 = i ∧ bytes = op :: [b1, b2].take f.size ++ rest := by
  cases bytes with
  | nil => cases h
  | cons op tail =>
    cases hf : form op with
    | none => cases (decodeBytes_unsupported tail hf).symm.trans h
    | some f =>
      cases f with
      | f0 j =>
        cases (decodeBytes_f0 tail hf).symm.trans h
        exact ⟨op, .f0 i, 0, 0, hf, rfl, rfl⟩
      | f1 make =>
        match tail with
        | [] => simp [decodeBytes, hf] at h
        | b1 :: tail' =>
          cases (decodeBytes_f1 b1 tail' hf).symm.trans h
          exact ⟨op, .f1 make, b1, 0, hf, rfl, rfl⟩
      | f2 make =>
        match tail with
        | [] | [_] => simp [decodeBytes, hf] at h
        | b1 :: b2 :: tail' =>
          cases (decodeBytes_f2 b1 b2 tail' hf).symm.trans h
          exact ⟨op, .f2 make, b1, b2, hf, rfl, rfl⟩

/-- Settles O2: what decodes is a filled form and the rest, and a filled form is encoded as the bytes it was
filled from. -/
theorem encodeOfDecode : Obligations.EncodeOfDecode := by
  intro bytes i rest h
  obtain ⟨op, f, b1, b2, hf, rfl, rfl⟩ := eq_of_decodeBytes h
  rw [encode_fill hf]

/-! ## Which bytes have a form, and which an entry -/

/-- The table's opcode bytes are the listed 39. -/
theorem map_opcode_optable : optable.map Row.opcode = supportedOpcodes := rfl

theorem lookup_eq_none_iff (t : List Row) (op : Byte) : lookup t op = none ↔ op ∉ t.map Row.opcode := by
  simp only [lookup, Option.map_eq_none_iff, List.find?_eq_none, List.mem_map, beq_iff_eq, not_exists, not_and]

theorem opcode_mem_supportedOpcodes (i : Instr) : i.opcode ∈ supportedOpcodes := by
  rw [← map_opcode_optable]
  refine Decidable.not_not.mp fun hnot => ?_
  have hnone := (lookup_eq_none_iff optable i.opcode).mpr hnot
  cases hnone.symm.trans (lookup_opcode i)

theorem form_isSome_iff (op : Byte) : (form op).isSome = true ↔ op ∈ supportedOpcodes := by
  constructor
  · intro h
    obtain ⟨f, hf⟩ := Option.isSome_iff_exists.mp h
    have hop : (f.fill 0 0).opcode = op := (List.cons.inj (encode_fill hf 0 0)).1
    exact hop ▸ opcode_mem_supportedOpcodes _
  · have hlisted : ∀ op ∈ supportedOpcodes, (form op).isSome = true := by decide
    exact hlisted op

/-- The decoder has a form for exactly the bytes with an entry in OPTABLE (R53, R55). -/
theorem form_eq_none_iff (op : Byte) : form op = none ↔ lookup optable op = none := by
  rw [lookup_eq_none_iff, map_opcode_optable, ← form_isSome_iff]
  simp

/-- Settles O5: the bytes with a form by the list, and the two counts and the check of the table by evaluation. -/
theorem supportedOpcodesExact : Obligations.SupportedOpcodesExact := by
  refine ⟨fun op => ?_, rfl, rfl, by decide⟩
  rw [Bool.eq_iff_iff, form_isSome_iff, List.contains_iff_mem]

/-- Settles O4: the decoder is evaluated on each word. -/
theorem sampleWordsDecode : Obligations.SampleWordsDecode := by
  unfold Obligations.SampleWordsDecode
  decide

/-! ## Decoding three bytes in hand -/

/-- What the decoder reads from an opcode byte and the two bytes after it is that opcode's instruction with the
operand bytes its mode takes. -/
theorem decodeInstr_eq_some {op b1 b2 : Byte} {i : Instr} (h : decodeInstr op b1 b2 = some i) :
    i.opcode = op ∧ i.operandBytes = [b1, b2].take (Machine.operandSize i.mode).toNat := by
  obtain ⟨f, hf, rfl⟩ := Option.map_eq_some_iff.mp h
  obtain ⟨hop, hbytes⟩ := List.cons.inj (encode_fill hf b1 b2)
  have hsize : f.size = (Machine.operandSize (f.fill b1 b2).mode).toNat := by
    rw [← Machine.operandBytes_length, hbytes, List.length_take]
    exact (Nat.min_eq_left f.size_le_two).symm
  exact ⟨hop, hsize ▸ hbytes⟩

/-- Settles O3: by whether the opcode byte has an entry; an instruction decoded from it has the entry of its own
opcode byte. -/
theorem decoderFollowsOpcodeTable : Obligations.DecoderFollowsOpcodeTable := by
  intro op b1 b2
  split
  next hl => exact (decodeInstr_none_iff op b1 b2).mpr ((form_eq_none_iff op).mpr hl)
  next m mode hl =>
    have hsome : decodeInstr op b1 b2 ≠ none := by
      rw [Ne, decodeInstr_none_iff, form_eq_none_iff, hl]
      simp
    obtain ⟨i, hi⟩ := Option.ne_none_iff_exists'.mp hsome
    obtain ⟨hop, hbytes⟩ := decodeInstr_eq_some hi
    have hrow := lookup_opcode i
    rw [hop, hl] at hrow
    cases hrow
    exact ⟨i, hi, rfl, rfl, hop, hbytes⟩

theorem decodeInstr_of_decodeBytes {op b1 b2 : Byte} {i : Instr} {rest : List Byte}
    (h : decodeBytes [op, b1, b2] = .accepted i rest) : decodeInstr op b1 b2 = some i := by
  cases hf : form op with
  | none => cases (decodeBytes_unsupported _ hf).symm.trans h
  | some f =>
    cases f with
    | f0 j =>
      cases (decodeBytes_f0 _ hf).symm.trans h
      simp [decodeInstr, hf, Form.fill]
    | f1 make =>
      cases (decodeBytes_f1 _ _ hf).symm.trans h
      simp [decodeInstr, hf, Form.fill]
    | f2 make =>
      cases (decodeBytes_f2 _ _ _ hf).symm.trans h
      simp [decodeInstr, hf, Form.fill]

end Sys2Proof
end

section
/-! PROOFS. The stack engine, on any base, and the two pushes of a JSR (44_stack_control_transfer.md R90 to R94). -/

open Sys2Proof.Claims

namespace Sys2Proof.Machine

/-! ## Push and pop -/

@[simp] theorem busRead_push_same (base : Addr) (b : Byte) (s : State) :
    (push base b s).busRead (stackAddr base s.sp) = b := by
  rw [push, State.busRead_setSp, State.busRead_busWrite_same]

@[simp] theorem push_sp (base : Addr) (b : Byte) (s : State) : (push base b s).sp = s.sp - 1 := rfl

/-- A push changes no cell but the one SP names (R91). -/
theorem busRead_push_ne (base : Addr) (b : Byte) (s : State) {c : Addr} (hc : c ≠ stackAddr base s.sp) :
    (push base b s).busRead c = s.busRead c := by
  rw [push, State.busRead_setSp, s.busRead_busWrite_ne b hc]

/-- Settles O38: the pushed cell, the frame of a push, and SP back where it was for the pop. -/
theorem popUndoesPush : Obligations.PopUndoesPush := by
  intro base b s
  have hsp : (push base b s).sp + 1 = s.sp := by rw [push_sp, BitVec.sub_add_cancel]
  refine ⟨busRead_push_same base b s, rfl, ?_, ?_, fun c hc => busRead_push_ne base b s hc, fun _ => rfl⟩
  · rw [pop_eq, hsp]
    exact busRead_push_same base b s
  · rw [pop_eq]
    exact hsp

/-! ## The two pushes of a call -/

theorem ne_sub_one (sp : Byte) : sp ≠ sp - 1 := by
  bv_omega

/-- The two stack cells of a call are different cells, whatever SP is. -/
theorem stackAddr_ne_sub_one (base : Addr) (sp : Byte) : stackAddr base sp ≠ stackAddr base (sp - 1) :=
  fun h => ne_sub_one sp (stackAddr_inj.mp h)

theorem sub_one_sub_one (sp : Byte) : sp - 1 - 1 = sp - 2 := by
  bv_omega

section

variable (base : Addr) (hi lo : Byte) (s : State)

theorem busRead_push_push_fst : (push base lo (push base hi s)).busRead (stackAddr base s.sp) = hi := by
  rw [busRead_push_ne _ _ _ (stackAddr_ne_sub_one base s.sp), busRead_push_same]

theorem busRead_push_push_snd : (push base lo (push base hi s)).busRead (stackAddr base (s.sp - 1)) = lo :=
  busRead_push_same base lo (push base hi s)

theorem busRead_push_push_ne {c : Addr} (h0 : c ≠ stackAddr base s.sp) (h1 : c ≠ stackAddr base (s.sp - 1)) :
    (push base lo (push base hi s)).busRead c = s.busRead c := by
  rw [busRead_push_ne base lo (push base hi s) h1, busRead_push_ne base hi s h0]

theorem push_push_frame :
    push base lo (push base hi s) = { s with sp := s.sp - 2, mem := (push base lo (push base hi s)).mem } := by
  rw [← sub_one_sub_one]
  rfl

end

theorem jsr_return_address (pc : Addr) : pc + 1 + 2 - 1 = pc + 2 := by
  bv_omega

/-- JSR on any stack base: two pushes of the address of its last byte, then the jump (R90, R94). -/
theorem finish_jumpSubroutine (base w : Addr) (s : State) :
    finish 2 (jumpSubroutine base 2 w s.pastOpcode) =
      (push base (loByte (s.pc + 2)) (push base (hiByte (s.pc + 2)) s)).setPc w := by
  rw [jumpSubroutine_eq, finish_jumped, State.pastOpcode_pc, jsr_return_address]
  rfl

theorem exec_jsrAbs_eq_push (w : Addr) (s : State) :
    exec (.jsrAbs w) s =
      .next ((push stackBase (loByte (s.pc + 2)) (push stackBase (hiByte (s.pc + 2)) s)).setPc w) := by
  rw [exec_jsrAbs, finish_jumpSubroutine]
  rfl

end Sys2Proof.Machine
end

section
/-! PROOFS. What a completed instruction can have done, said once, and the frames that follow from it
(41_dispatch.md R80). -/

open Sys2Proof.Claims

namespace Sys2Proof.Machine

/-- The eight things an instruction can do to a state, by its mnemonic: the next states of `exec i s` are among
these (`exec_effect`). Where PC ends up, and which values are moved, is left open. -/
inductive Effect (i : Instr) (s : State) : State → Prop
  | loadA (hm : i.mnemonic ∈ [.lda, .txa]) (v : Byte) (pc : Addr) : Effect i s (((s.setA v).flagZN v).setPc pc)
  | loadX (hm : i.mnemonic ∈ [.ldx, .tax, .inx]) (v : Byte) (pc : Addr) :
      Effect i s (((s.setX v).flagZN v).setPc pc)
  | loadY (hm : i.mnemonic = .ldy) (v : Byte) (pc : Addr) : Effect i s (((s.setY v).flagZN v).setPc pc)
  | store (hm : i.mnemonic ∈ [.sta, .stx, .sty]) (addr : Addr) (hc : storedCells i s = [addr]) (v : Byte)
      (pc : Addr) : Effect i s ((s.busWrite addr v).setPc pc)
  | jump (hm : i.mnemonic = .jmp) (pc : Addr) : Effect i s (s.setPc pc)
  | call (hm : i.mnemonic = .jsr)
      (hc : storedCells i s = [stackAddr stackBase s.sp, stackAddr stackBase (s.sp - 1)]) (hi lo : Byte)
      (pc : Addr) : Effect i s ((push stackBase lo (push stackBase hi s)).setPc pc)
  | ret (hm : i.mnemonic = .rts) (pc : Addr) : Effect i s ((s.setSp (s.sp + 1 + 1)).setPc pc)
  | halt (hm : i.mnemonic = .brk) : Effect i s (s.pastOpcode.setRun .halted)

variable {i : Instr} {s t : State}

theorem exec_effect (h : exec i s = .next t) : Effect i s t := by
  cases i with
  | ldaImm | ldaZp | ldaZpX | ldaAbs | ldaAbsX | ldaAbsY | ldaIndX | ldaIndY | txa =>
    cases h
    exact .loadA (by simp [Instr.mnemonic]) _ _
  | ldxImm | ldxZp | ldxZpY | ldxAbs | ldxAbsY | tax | inx =>
    cases h
    exact .loadX (by simp [Instr.mnemonic]) _ _
  | ldyImm | ldyZp | ldyZpX | ldyAbs | ldyAbsX =>
    cases h
    exact .loadY rfl _ _
  | staZp | staZpX | staAbs | staAbsX | staAbsY | staIndX | staIndY | stxZp | stxZpY | stxAbs | styZp | styZpX
  | styAbs =>
    cases h
    exact .store (by simp [Instr.mnemonic]) _ rfl _ _
  | jmpAbs | jmpInd =>
    cases h
    exact .jump rfl _
  | jsrAbs w =>
    rw [exec_jsrAbs_eq_push] at h
    cases h
    exact .call rfl rfl _ _ _
  | rts =>
    cases h
    exact .ret rfl _
  | brk =>
    cases h
    exact .halt rfl

/-! ## Frames -/

theorem exec_a_of_notMem (hm : i.mnemonic ∉ [.lda, .txa]) (h : exec i s = .next t) : t.a = s.a := by
  cases exec_effect h with
  | loadA hm' => exact absurd hm' hm
  | _ => rfl

theorem exec_x_of_notMem (hm : i.mnemonic ∉ [.ldx, .tax, .inx]) (h : exec i s = .next t) : t.x = s.x := by
  cases exec_effect h with
  | loadX hm' => exact absurd hm' hm
  | _ => rfl

theorem exec_y_of_ne (hm : i.mnemonic ≠ .ldy) (h : exec i s = .next t) : t.y = s.y := by
  cases exec_effect h with
  | loadY hm' => exact absurd hm' hm
  | _ => rfl

theorem exec_sp_of_notMem (hm : i.mnemonic ∉ [.jsr, .rts]) (h : exec i s = .next t) : t.sp = s.sp := by
  cases exec_effect h with
  | call hm' | ret hm' => simp [hm'] at hm
  | _ => rfl

theorem exec_run_of_ne (hm : i.mnemonic ≠ .brk) (h : exec i s = .next t) : t.run = s.run := by
  cases exec_effect h with
  | halt hm' => exact absurd hm' hm
  | _ => rfl

/-- BRK is the one instruction that touches RUN, and it leaves PC one past its byte (R97). -/
theorem exec_of_brk (hm : i.mnemonic = .brk) (h : exec i s = .next t) :
    t = { s with pc := s.pc + 1, run := .halted } := by
  cases i with
  | brk =>
    cases h
    rfl
  | _ => cases hm

theorem exec_mem_of_notMem (hm : i.mnemonic ∉ [.sta, .stx, .sty, .jsr]) (h : exec i s = .next t) :
    t.mem = s.mem := by
  cases exec_effect h with
  | store hm' => exact absurd (List.mem_append_left [Mnemonic.jsr] hm') hm
  | call hm' => simp [hm'] at hm
  | _ => rfl

/-- Every cell an instruction does not store to reads as before (R80). -/
theorem exec_busRead_of_notMem {c : Addr} (hc : c ∉ storedCells i s) (h : exec i s = .next t) :
    t.busRead c = s.busRead c := by
  cases exec_effect h with
  | store _ addr hcells v =>
    rw [hcells, List.mem_singleton] at hc
    rw [State.busRead_setPc, s.busRead_busWrite_ne v hc]
  | call _ hcells hi lo =>
    simp only [hcells, List.mem_cons, List.not_mem_nil, or_false, not_or] at hc
    obtain ⟨h0, h1⟩ := hc
    rw [State.busRead_setPc, busRead_push_push_ne _ hi lo s h0 h1]
  | _ => rfl

/-- Of P, an instruction can change bits 1 and 7 only (R18). -/
theorem exec_getLsbD_p {k : Nat} (hz : k ≠ 1) (hn : k ≠ 7) (h : exec i s = .next t) :
    t.p.getLsbD k = s.p.getLsbD k := by
  by_cases hm : i.mnemonic ∈ setsFlags
  · rw [exec_p_of_mem_setsFlags hm h, getLsbD_setZN_of_ne _ _ hz hn]
  · rw [exec_p_of_notMem_setsFlags hm h]

/-- Settles O31: one frame for each register, for P and its bits, for RUN and for the cells. -/
theorem instructionFrame : Obligations.InstructionFrame := fun _ _ _ h =>
  ⟨fun hm => exec_a_of_notMem hm h, fun hm => exec_x_of_notMem hm h, fun hm => exec_y_of_ne hm h,
    fun hm => exec_sp_of_notMem hm h, fun hm => exec_p_of_notMem_setsFlags hm h, fun _ hz hn => exec_getLsbD_p hz hn h,
    fun hm => exec_run_of_ne hm h, fun _ hc => exec_busRead_of_notMem hc h⟩

/-! ## The invariants an instruction keeps -/

/-- Bit 7 of a value, in its place, is one of two bytes. -/
theorem and_0x80_eq (v : Byte) : v &&& 0x80#8 = 0x00#8 ∨ v &&& 0x80#8 = 0x80#8 := by
  have h : v &&& 0x80#8 = if v.getLsbD 7 then 0x80#8 else 0x00#8 := BitVec.and_twoPow v 7
  rw [h]
  cases v.getLsbD 7 <;> simp

/-- The legal values of P have the six unnamed bits clear (R17). -/
theorem unnamed_bits_of_statusLegal {p : Byte} (h : statusLegal p = true) : p &&& 0x7D#8 = 0#8 := by
  simp only [statusLegal, Bool.or_eq_true, beq_iff_eq] at h
  rcases h with (rfl | rfl) | rfl <;> rfl

theorem statusLegal_setZN {p : Byte} (v : Byte) (h : statusLegal p = true) : statusLegal (setZN p v) = true := by
  rw [setZN_of_clear v (unnamed_bits_of_statusLegal h)]
  split
  · rfl
  · rcases and_0x80_eq v with h0 | h1
    · rw [h0]
      rfl
    · rw [h1]
      rfl

theorem exec_statusLegal (hp : statusLegal s.p = true) (h : exec i s = .next t) : statusLegal t.p = true := by
  by_cases hm : i.mnemonic ∈ setsFlags
  · rw [exec_p_of_mem_setsFlags hm h]
    exact statusLegal_setZN _ hp
  · rwa [exec_p_of_notMem_setsFlags hm h]

theorem exec_mem_wf (hw : s.mem.wf = true) (h : exec i s = .next t) : t.mem.wf = true := by
  cases exec_effect h with
  | store _ addr _ v => exact State.busWrite_wf addr v hw
  | call _ _ hi lo => exact State.busWrite_wf _ lo (State.busWrite_wf (stackAddr stackBase s.sp) hi hw)
  | _ => exact hw

end Sys2Proof.Machine
end

section
/-! PROOFS. The step: what is fetched, the step's outcomes, and the invariants every move keeps (41_dispatch.md
R75, 10_state.md R17 and R19, 60_exceptions.md R101). -/

open Sys2Proof.Claims

namespace Sys2Proof.Machine

variable {i : Instr} {s t : State}

/-! ## The fetch -/

/-- What is fetched has the opcode byte at PC and the operand bytes after it. -/
theorem opcode_of_fetch (hf : s.fetch = some i) : i.opcode = s.busRead s.pc := (decodeInstr_eq_some hf).1

theorem operandBytes_of_fetch (hf : s.fetch = some i) :
    i.operandBytes = [s.busRead (s.pc + 1), s.busRead (s.pc + 2)].take (operandSize i.mode).toNat :=
  (decodeInstr_eq_some hf).2

theorem lookup_of_fetch (hf : s.fetch = some i) : lookup optable (s.busRead s.pc) = some (i.mnemonic, i.mode) :=
  opcode_of_fetch hf ▸ lookup_opcode i

/-- The fetch finds nothing exactly where OPTABLE has no entry (R77). -/
theorem fetch_eq_none_iff : s.fetch = none ↔ lookup optable (s.busRead s.pc) = none :=
  (decodeInstr_none_iff ..).trans (form_eq_none_iff _)

theorem opcodeIn_of_fetch {ms : List Mnemonic} (hf : s.fetch = some i) (hm : i.mnemonic ∈ ms) : opcodeIn ms s :=
  ⟨i.mnemonic, i.mode, lookup_of_fetch hf, hm⟩

/-! ## Which step is taken -/

theorem step_of_fetch (hrun : s.run = .running) (hf : s.fetch = some i) : step s = exec i s := by
  rw [step_of_running hrun, hf]

theorem step_of_lookup_none (hrun : s.run = .running) (hl : lookup optable (s.busRead s.pc) = none) :
    step s = .next (raiseUnsupportedOpcode (s.busRead s.pc) s) := by
  rw [step_of_running hrun, fetch_eq_none_iff.mpr hl]

theorem step_of_powerOn (hrun : s.run = .powerOn) : step s = .fault .stepBeforeReset := by
  simp only [step, hrun]

/-- Where no step is enabled the answer is a fault (R126). -/
theorem step_of_not_running (hrun : s.run ≠ .running) : ∃ f, step s = .fault f := by
  cases h : s.run with
  | running => exact absurd h hrun
  | powerOn | halted | faulted =>
    simp only [step, h]
    exact ⟨_, rfl⟩

theorem exec_completes (i : Instr) (s : State) : ∃ t, exec i s = .next t := by
  cases h : exec i s with
  | next t => exact ⟨t, rfl⟩
  | fault f => exact absurd h (exec_ne_fault i s f)
  | refused r => exact absurd h (exec_ne_refused i s r)

/-- Settles O7: the list of the three bytes decodes to what the fetch finds. -/
theorem stepRunsDecodedInstruction : Obligations.StepRunsDecodedInstruction := fun _ _ _ hrun h =>
  step_of_fetch hrun (decodeInstr_of_decodeBytes h)

/-- Settles O8: without an entry the fetch finds nothing, and the condition is taken. -/
theorem unsupportedOpcodeFaultsTheCore : Obligations.UnsupportedOpcodeFaultsTheCore := by
  intro s hrun hl
  rw [step_of_lookup_none hrun hl, raiseUnsupportedOpcode_eq]

/-- Settles O9: a step is the condition taken or an instruction, and every instruction completes. -/
theorem stepCompletesExactlyWhenRunning : Obligations.StepCompletesExactlyWhenRunning := by
  refine fun s => ⟨fun ⟨t, h⟩ => (step_cases h).1, fun hrun => ?_⟩
  cases hf : s.fetch with
  | none => exact ⟨_, step_of_lookup_none hrun (fetch_eq_none_iff.mp hf)⟩
  | some i => exact step_of_fetch hrun hf ▸ exec_completes i s

/-! ## The run states a step leads to -/

/-- BRK's byte is 0x00, and no other instruction has it (R53). -/
theorem opcode_eq_zero_iff (i : Instr) : i.opcode = 0x00 ↔ i.mnemonic = .brk := by
  cases i <;> simp [Instr.opcode, Instr.mnemonic]

/-- Settles O11: the condition is taken, or BRK runs, or another instruction, which leaves RUN as it is. -/
theorem runStateTransitions : Obligations.RunStateTransitions := by
  intro s t h
  obtain ⟨hrun, ⟨i, hf, he⟩ | ⟨hf, rfl⟩⟩ := step_cases h
  · have hbrk := opcode_eq_zero_iff i
    rw [opcode_of_fetch hf] at hbrk
    by_cases hm : i.mnemonic = .brk
    · exact .inl ⟨hbrk.mpr hm, exec_of_brk hm he⟩
    · refine .inr (.inr ⟨fun h0 => hm (hbrk.mp h0), ?_, (exec_run_of_ne hm he).trans hrun⟩)
      simp [lookup_of_fetch hf]
  · exact .inr (.inl ⟨fetch_eq_none_iff.mp hf, raiseUnsupportedOpcode_eq _ s⟩)

theorem step_run_ne_powerOn (h : step s = .next t) : t.run ≠ .powerOn := by
  obtain ⟨-, rfl⟩ | ⟨-, rfl⟩ | ⟨-, -, hrun⟩ := runStateTransitions s t h
  · simp
  · simp
  · simp [hrun]

/-- Settles O32: what a step changed, its instruction wrote, and the fetch says which mnemonic that is. -/
theorem onlyListedWritersChangeState : Obligations.OnlyListedWritersChangeState := by
  intro s t h
  obtain ⟨-, ⟨i, hf, he⟩ | ⟨-, rfl⟩⟩ := step_cases h
  · have writer : ∀ ms : List Mnemonic, ¬ i.mnemonic ∉ ms → opcodeIn ms s := fun _ hm =>
      opcodeIn_of_fetch hf (Decidable.not_not.mp hm)
    exact ⟨fun hne => writer _ fun hm => hne (exec_a_of_notMem hm he),
      fun hne => writer _ fun hm => hne (exec_x_of_notMem hm he),
      fun hne => writer _ fun hm => hne (exec_y_of_ne (fun e => hm (List.mem_singleton.mpr e)) he),
      fun hne => writer _ fun hm => hne (exec_sp_of_notMem hm he),
      fun hne => writer _ fun hm => hne (exec_p_of_notMem_setsFlags hm he),
      fun c hne => writer _ fun hm => hne (congrArg (Memory.get · c.toNat) (exec_mem_of_notMem hm he))⟩
  · exact ⟨fun hne => absurd rfl hne, fun hne => absurd rfl hne, fun hne => absurd rfl hne,
      fun hne => absurd rfl hne, fun hne => absurd rfl hne, fun _ hne => absurd rfl hne⟩

/-! ## The invariants -/

/-- Settles O43: an instruction keeps both parts, and taking the condition touches neither Mem nor P. -/
theorem stepKeepsInv : Obligations.StepKeepsInv := by
  rintro s t ⟨hw, hp⟩ h
  obtain ⟨-, ⟨i, -, he⟩ | ⟨-, rfl⟩⟩ := step_cases h
  · exact ⟨exec_mem_wf hw he, exec_statusLegal hp he⟩
  · exact ⟨hw, hp⟩

/-- Settles O44: Mem is empty and P is 0x00. -/
theorem resetMeetsInv : Obligations.ResetMeetsInv := ⟨reset_mem_wf, rfl⟩

theorem legal_construct (u : PowerOnRegs) : Legal (construct u) := ⟨rfl, fun h => absurd rfl h, nofun⟩

/-- A Faulted state is only entered by taking the condition, which records the byte without an entry (R101). -/
theorem step_keeps_legal (hs : Legal s) (h : step s = .next t) : Legal t := by
  obtain ⟨hw, hp, -⟩ := hs
  have hrun := (step_cases h).1
  obtain ⟨hw', hp'⟩ := stepKeepsInv s t ⟨hw, hp (by simp [hrun])⟩ h
  refine ⟨hw', fun _ => hp', fun op loc hfault => ?_⟩
  obtain ⟨-, rfl⟩ | ⟨hl, rfl⟩ | ⟨-, -, hrunning⟩ := runStateTransitions s t h
  · cases hfault
  · cases hfault
    exact ⟨rfl, hl⟩
  · cases hrunning.symm.trans hfault

theorem resetCore_legal (hs : Legal s) : Legal (resetCore s) := by
  obtain ⟨hw, -, -⟩ := hs
  exact ⟨hw, fun _ => rfl, nofun⟩

/-- Copying an image changes Mem only (R122). -/
theorem writeImage_frame (image : List Byte) (addr : Addr) (s : State) :
    writeImage image addr s = { s with mem := (writeImage image addr s).mem } := by
  induction image generalizing addr s with
  | nil => rfl
  | cons b bs ih =>
    rw [writeImage, ih]
    rfl

theorem writeImage_wf (image : List Byte) (addr : Addr) (hw : s.mem.wf = true) :
    (writeImage image addr s).mem.wf = true := by
  induction image generalizing addr s with
  | nil => exact hw
  | cons b bs ih => exact ih (addr + 1) (State.busWrite_wf addr b hw)

theorem load_of_length_le {image : List Byte} (hlen : image.length ≤ 0x8000) (s : State) :
    load image s =
      .loaded ((writeImage image Config.loadOrigin s).write16 Config.resetVector Config.loadOrigin) := by
  simp [load, imageWf, hlen]

theorem load_of_length_gt {image : List Byte} (hlen : 0x8000 < image.length) (s : State) :
    load image s = .programTooLarge image.length := by
  simp [load, imageWf, hlen]

/-- The only way `load` succeeds: the image fits, and it is copied before the vector is written. -/
theorem load_eq_loaded {image : List Byte} (h : load image s = .loaded t) :
    image.length ≤ 0x8000 ∧ t = (writeImage image Config.loadOrigin s).write16 Config.resetVector Config.loadOrigin := by
  rcases Nat.lt_or_ge 0x8000 image.length with hlen | hlen
  · cases (load_of_length_gt hlen s).symm.trans h
  · cases (load_of_length_le hlen s).symm.trans h
    exact ⟨hlen, rfl⟩

/-- A load that succeeds changes Mem only (R122). -/
theorem load_frame {image : List Byte} (h : load image s = .loaded t) : t = { s with mem := t.mem } := by
  obtain ⟨-, rfl⟩ := load_eq_loaded h
  rw [writeImage_frame]
  rfl

theorem load_keeps_legal {image : List Byte} (hs : Legal s) (h : load image s = .loaded t) : Legal t := by
  obtain ⟨hw, hp, hfault⟩ := hs
  have hw' : t.mem.wf = true := by
    obtain ⟨-, rfl⟩ := load_eq_loaded h
    exact State.write16_wf _ _ (writeImage_wf image _ hw)
  rw [load_frame h]
  exact ⟨hw', hp, hfault⟩

/-- Settles O56: construction, and each of the three moves by its own lemma. -/
theorem everyMoveKeepsLegal : Obligations.EveryMoveKeepsLegal :=
  ⟨legal_construct, fun _ _ => step_keeps_legal, fun _ _ _ => load_keeps_legal, fun _ => resetCore_legal⟩

/-- Settles O45: induction on how the state was reached. -/
theorem reachableStatesAreLegal : Obligations.ReachableStatesAreLegal := by
  intro s h
  induction h with
  | construct u => exact legal_construct u
  | load image _ hload ih => exact load_keeps_legal ih hload
  | reset _ ih => exact resetCore_legal ih
  | step _ hstep ih => exact step_keeps_legal ih hstep

end Sys2Proof.Machine
end

section
/-! PROOFS. The effective addresses of the pointer modes, and the results of the instructions, each as its handler
inside the dispatcher (42_load_store.md, 43_transfer_increment.md, 44_stack_control_transfer.md, 45_halt.md). -/

open Sys2Proof.Claims

namespace Sys2Proof.Machine

/-- Settles O17: both modes read the pointer as a word of the zero page, and the byte after 0xFF is 0x00. -/
theorem pointerEffectiveAddresses : Obligations.PointerEffectiveAddresses := by
  refine fun s => ⟨rfl, rfl, fun hb => ?_⟩
  rw [ea, hb]
  rfl

/-! ## The dispatcher around a load

PC moves past the opcode byte, and then by OperandSize: `len` in all. -/

section

variable {size len : Addr} (hlen : 1 + size = len) (v : Byte) (s : State)
include hlen

theorem pc_past_instruction (pc : Addr) : pc + 1 + size = pc + len := by
  rw [BitVec.add_assoc, hlen]

theorem finish_loadA : finish size (loadA v s.pastOpcode) = loadedA v len s := by
  rw [loadA_eq, finish_cont, loadedA, ← pc_past_instruction hlen]
  rfl

theorem finish_loadX : finish size (loadX v s.pastOpcode) = loadedX v len s := by
  rw [loadX_eq, finish_cont, loadedX, ← pc_past_instruction hlen]
  rfl

theorem finish_loadY : finish size (loadY v s.pastOpcode) = loadedY v len s := by
  rw [loadY_eq, finish_cont, loadedY, ← pc_past_instruction hlen]
  rfl

end

/-! ## Loads, transfers and the increment -/

section

variable {i : Instr} {size len : Addr} {v : Byte} {s : State}

theorem runs_loadA (h : exec i s = .next (finish size (loadA v s.pastOpcode))) (hlen : 1 + size = len) :
    Runs i.opcode i.mode i s (loadedA v len s) :=
  ⟨rfl, rfl, finish_loadA hlen v s ▸ h⟩

theorem runs_loadX (h : exec i s = .next (finish size (loadX v s.pastOpcode))) (hlen : 1 + size = len) :
    Runs i.opcode i.mode i s (loadedX v len s) :=
  ⟨rfl, rfl, finish_loadX hlen v s ▸ h⟩

theorem runs_loadY (h : exec i s = .next (finish size (loadY v s.pastOpcode))) (hlen : 1 + size = len) :
    Runs i.opcode i.mode i s (loadedY v len s) :=
  ⟨rfl, rfl, finish_loadY hlen v s ▸ h⟩

end

/-- Settles O18: in each mode LDA is `loadA` of its datum. -/
theorem ldaResult : Obligations.LdaResult := fun s b1 w =>
  ⟨runs_loadA (exec_ldaImm b1 s) rfl, runs_loadA (exec_ldaZp b1 s) rfl, runs_loadA (exec_ldaZpX b1 s) rfl,
    runs_loadA (exec_ldaAbs w s) rfl, runs_loadA (exec_ldaAbsX w s) rfl, runs_loadA (exec_ldaAbsY w s) rfl,
    runs_loadA (exec_ldaIndX b1 s) rfl, runs_loadA (exec_ldaIndY b1 s) rfl⟩

/-- Settles O19: in each mode LDX is `loadX` of its datum. -/
theorem ldxResult : Obligations.LdxResult := fun s b1 w =>
  ⟨runs_loadX (exec_ldxImm b1 s) rfl, runs_loadX (exec_ldxZp b1 s) rfl, runs_loadX (exec_ldxZpY b1 s) rfl,
    runs_loadX (exec_ldxAbs w s) rfl, runs_loadX (exec_ldxAbsY w s) rfl⟩

/-- Settles O20: in each mode LDY is `loadY` of its datum. -/
theorem ldyResult : Obligations.LdyResult := fun s b1 w =>
  ⟨runs_loadY (exec_ldyImm b1 s) rfl, runs_loadY (exec_ldyZp b1 s) rfl, runs_loadY (exec_ldyZpX b1 s) rfl,
    runs_loadY (exec_ldyAbs w s) rfl, runs_loadY (exec_ldyAbsX w s) rfl⟩

/-- Settles O24: a transfer or the increment is a load of its value into the destination register. -/
theorem transferAndIncrementResult : Obligations.TransferAndIncrementResult := fun s =>
  ⟨runs_loadX (exec_tax s) rfl, runs_loadA (exec_txa s) rfl, runs_loadX (exec_inx s) rfl⟩

/-! ## Stores -/

/-- A byte written to one cell, and PC past the instruction (R84 to R86). -/
theorem stores_of_exec {i : Instr} {size len addr : Addr} {v : Byte} {s : State}
    (h : exec i s = .next (finish size ⟨s.pastOpcode.busWrite addr v, .cont⟩)) (hlen : 1 + size = len) :
    Stores i.opcode i.mode i addr v len s := by
  refine ⟨rfl, rfl, _, h, ?_, fun c hc => ?_, ?_⟩
  · rw [finish_cont, State.busRead_setPc, State.busRead_busWrite_same]
  · rw [finish_cont, State.busRead_setPc, State.busRead_busWrite_ne _ _ hc, State.busRead_pastOpcode]
  · rw [finish_cont, ← pc_past_instruction hlen]
    rfl

/-- Settles O21: in each mode STA writes A to the cell at its effective address. -/
theorem staResult : Obligations.StaResult := fun s b1 w =>
  ⟨stores_of_exec (exec_staZp b1 s) rfl, stores_of_exec (exec_staZpX b1 s) rfl, stores_of_exec (exec_staAbs w s) rfl,
    stores_of_exec (exec_staAbsX w s) rfl, stores_of_exec (exec_staAbsY w s) rfl,
    stores_of_exec (exec_staIndX b1 s) rfl, stores_of_exec (exec_staIndY b1 s) rfl⟩

/-- Settles O22: in each mode STX writes X to the cell at its effective address. -/
theorem stxResult : Obligations.StxResult := fun s b1 w =>
  ⟨stores_of_exec (exec_stxZp b1 s) rfl, stores_of_exec (exec_stxZpY b1 s) rfl, stores_of_exec (exec_stxAbs w s) rfl⟩

/-- Settles O23: in each mode STY writes Y to the cell at its effective address. -/
theorem styResult : Obligations.StyResult := fun s b1 w =>
  ⟨stores_of_exec (exec_styZp b1 s) rfl, stores_of_exec (exec_styZpX b1 s) rfl, stores_of_exec (exec_styAbs w s) rfl⟩

/-! ## Control transfer and halt -/

/-- Settles O25: JMP moves PC to the effective address. -/
theorem jmpResult : Obligations.JmpResult := fun _ _ _ => ⟨⟨rfl, rfl, rfl⟩, ⟨rfl, rfl, rfl⟩⟩

/-- Settles O26: JSR is two pushes of the return address and a jump. -/
theorem jsrResult : Obligations.JsrResult := by
  refine fun s w => ⟨rfl, rfl, _, exec_jsrAbs_eq_push w s, ?_, ?_, fun c h0 h1 => ?_, ?_⟩
  · rw [State.busRead_setPc, busRead_push_push_fst]
  · rw [State.busRead_setPc, busRead_push_push_snd]
  · rw [State.busRead_setPc, busRead_push_push_ne _ _ _ s h0 h1]
  · rw [push_push_frame]
    rfl

theorem add_one_add_one {n : Nat} (x : BitVec n) : x + 1 + 1 = x + 2 := by
  rw [BitVec.add_assoc]
  exact congrArg (x + ·) (BitVec.ofNat_add 1 1).symm

/-- RTS: SP past the two cells, and PC one past the word they hold (R95). -/
theorem exec_rts_eq (s : State) :
    exec .rts s =
      .next { s with
        sp := s.sp + 2
        pc := word (s.busRead (stackAddr stackBase (s.sp + 2))) (s.busRead (stackAddr stackBase (s.sp + 1))) + 1 } := by
  rw [← add_one_add_one s.sp]
  rfl

/-- Settles O27: RTS is two pops and a jump. -/
theorem rtsResult : Obligations.RtsResult := fun s => ⟨rfl, rfl, exec_rts_eq s⟩

/-- Settles O28: BRK's handler changes nothing, and the dispatcher halts the core. -/
theorem brkResult : Obligations.BrkResult := fun _ => ⟨rfl, rfl, rfl⟩

end Sys2Proof.Machine
end

section
/-! PROOFS. Words in memory, the canonical form, and a word placed at PC (20_memory.md R34 and R35, 10_state.md R20,
70_reset_and_hazards.md R129). -/

open Sys2Proof.Claims

namespace Sys2Proof.Machine

/-! ## Words -/

theorem ne_add_one (addr : Addr) : addr ≠ addr + 1 := by
  bv_omega

section

variable (s : State) (addr w : Addr)

@[simp] theorem busRead_write16_low : (s.write16 addr w).busRead addr = loByte w := by
  rw [State.write16, State.busRead_busWrite_ne _ _ (ne_add_one addr), State.busRead_busWrite_same]

@[simp] theorem busRead_write16_high : (s.write16 addr w).busRead (addr + 1) = hiByte w := by
  rw [State.write16, State.busRead_busWrite_same]

theorem busRead_write16_ne {c : Addr} (h0 : c ≠ addr) (h1 : c ≠ addr + 1) :
    (s.write16 addr w).busRead c = s.busRead c := by
  rw [State.write16, State.busRead_busWrite_ne _ _ h1, State.busRead_busWrite_ne _ _ h0]

/-- A word read back is the word written, also where its cells are 0xFFFF and 0x0000 (R34, R35). -/
theorem read16_write16 : (s.write16 addr w).read16 addr = w := by
  rw [State.read16, busRead_write16_low, busRead_write16_high, word_hiByte_loByte]

end

/-- Settles O36: the two cells of a word, the word read back, and every other cell. -/
theorem wordAccessIsLittleEndian : Obligations.WordAccessIsLittleEndian := fun s addr w =>
  ⟨rfl, read16_write16 s addr w, busRead_write16_low s addr w, busRead_write16_high s addr w,
    fun _ h0 h1 => busRead_write16_ne s addr w h0 h1⟩

/-! ## The canonical form -/

/-- The head of a canonical memory: an address of the space, not 0x00, and below every address of the tail. -/
theorem wf_cons_iff {c : Host.Cell} {cs : Memory} :
    Memory.wf (c :: cs) = true ↔
      c.1 < Config.memSize ∧ c.2 ≠ Config.memFill ∧ (∀ d ∈ cs, c.1 < d.1) ∧ Memory.wf cs = true := by
  simp [Memory.wf, and_assoc]

theorem get_head (c : Host.Cell) (cs : Memory) : Memory.get (c :: cs) c.1 = c.2 := if_pos rfl

/-- Below its head, and at its head in its tail, a canonical memory reads as nothing written. -/
theorem get_eq_fill_of_le {k : Nat} {c : Host.Cell} {cs : Memory} (hw : Memory.wf (c :: cs) = true) (hk : k ≤ c.1) :
    Memory.get cs k = Config.memFill := by
  obtain ⟨-, -, hlt, -⟩ := wf_cons_iff.mp hw
  exact Memory.get_eq_fill k cs fun d hd => Nat.ne_of_gt (Nat.lt_of_le_of_lt hk (hlt d hd))

theorem get_eq_fill_of_lt {k : Nat} {c : Host.Cell} {cs : Memory} (hw : Memory.wf (c :: cs) = true) (hk : k < c.1) :
    Memory.get (c :: cs) k = Config.memFill := by
  rw [Memory.get, if_neg (Nat.ne_of_gt hk), get_eq_fill_of_le hw (Nat.le_of_lt hk)]

/-- Two canonical memories that read alike have the same least address: where one begins the other reads as
written. -/
theorem head_le_head {c d : Host.Cell} {cs ds : Memory} (hc : Memory.wf (c :: cs) = true)
    (hd : Memory.wf (d :: ds) = true) (h : Memory.get (c :: cs) c.1 = Memory.get (d :: ds) c.1) : d.1 ≤ c.1 := by
  refine Nat.le_of_not_lt fun hlt => ?_
  obtain ⟨-, hne, -, -⟩ := wf_cons_iff.mp hc
  rw [get_head, get_eq_fill_of_lt hd (by omega)] at h
  exact hne h

/-- A canonical memory that reads as nothing written everywhere lists no cell. -/
theorem eq_nil_of_get_eq_fill {m : Memory} (hw : m.wf = true) (h : ∀ k, k < 65536 → m.get k = Config.memFill) :
    m = [] := by
  cases m with
  | nil => rfl
  | cons c cs =>
    obtain ⟨hlt, hne, -, -⟩ := wf_cons_iff.mp hw
    exact absurd (get_head c cs ▸ h c.1 hlt) hne

/-- Settles O37: induction on the one memory; the heads agree on address and byte, and off the head's address a
tail reads as its list. -/
theorem canonicalMemoryIsDeterminedByReads : Obligations.CanonicalMemoryIsDeterminedByReads := by
  intro m
  induction m with
  | nil => exact fun n _ hn h => (eq_nil_of_get_eq_fill hn fun k hk => (h k hk).symm).symm
  | cons c cs ih =>
    intro n hm hn h
    cases n with
    | nil => exact eq_nil_of_get_eq_fill hm h
    | cons d ds =>
      obtain ⟨hclt, -, -, hcs⟩ := wf_cons_iff.mp hm
      obtain ⟨hdlt, -, -, hds⟩ := wf_cons_iff.mp hn
      have haddr : d.1 = c.1 :=
        Nat.le_antisymm (head_le_head hm hn (h c.1 hclt)) (head_le_head hn hm (h d.1 hdlt).symm)
      have hhead : c = d := by
        have hread := h c.1 hclt
        rw [get_head, ← haddr, get_head] at hread
        exact Prod.ext haddr.symm hread
      subst hhead
      have htail : cs = ds := ih ds hcs hds fun k hk => by
        by_cases hkc : k ≤ c.1
        · rw [get_eq_fill_of_le hm hkc, get_eq_fill_of_le hn hkc]
        · have hread := h k hk
          rwa [Memory.get, Memory.get, if_neg (by omega), if_neg (by omega)] at hread
      rw [htail]

/-! ## A word placed at PC -/

theorem withFetchWord_run (s : State) (nbits w : Nat) : (s.withFetchWord nbits w).run = .running := rfl

/-- The three bytes from PC on are the three lowest bytes of the word (log 11). -/
theorem fetch_withFetchWord (s : State) (nbits w : Nat) :
    (s.withFetchWord nbits w).fetch = decodeTableWord nbits w := by
  have h01 : s.pc ≠ s.pc + 1 := ne_add_one s.pc
  have h02 : s.pc ≠ s.pc + 2 := by bv_omega
  have h12 : s.pc + 1 ≠ s.pc + 2 := by bv_omega
  simp only [State.fetch, State.withFetchWord, State.setRun_pc, State.busWrite_pc, State.busRead_setRun,
    State.busRead_busWrite_same, State.busRead_busWrite_ne _ _ h01, State.busRead_busWrite_ne _ _ h02,
    State.busRead_busWrite_ne _ _ h12, decodeTableWord]

/-- Settles O15: the core is set Running, and the fetch finds the word. -/
theorem placedWordIsRunNext : Obligations.PlacedWordIsRunNext := fun s nbits w _ h =>
  step_of_fetch (withFetchWord_run s nbits w) ((fetch_withFetchWord s nbits w).trans h)

end Sys2Proof.Machine
end

section
/-! PROOFS. Which registers an instruction reads (10_state.md R10 to R13, R16). -/

open Sys2Proof.Claims

namespace Sys2Proof.Machine

variable {i : Instr} {s t : State} (v : Byte)

/-- An instruction that ends with SetZN sets P anew from the P it found; every other keeps it. -/
theorem exec_setP (h : exec i s = .next t) : ∃ q, exec i (s.setP v) = .next (t.setP q) := by
  cases i with
  | ldaImm | ldaZp | ldaZpX | ldaAbs | ldaAbsX | ldaAbsY | ldaIndX | ldaIndY | ldxImm | ldxZp | ldxZpY | ldxAbs
  | ldxAbsY | ldyImm | ldyZp | ldyZpX | ldyAbs | ldyAbsX | tax | txa | inx =>
    cases h
    exact ⟨setZN v _, rfl⟩
  | _ =>
    cases h
    exact ⟨v, rfl⟩

/-- Settles O33: the fetch does not look at P, and no instruction does. -/
theorem statusIsNeverRead : Obligations.StatusIsNeverRead := by
  intro s p
  cases hrun : s.run with
  | powerOn | halted | faulted => simp only [step, hrun, State.setP_run]
  | running =>
    cases hf : s.fetch with
    | none =>
      have hl : lookup optable (s.busRead s.pc) = none := fetch_eq_none_iff.mp hf
      rw [step_of_lookup_none hrun hl]
      exact ⟨p, step_of_lookup_none (s := s.setP p) hrun hl⟩
    | some i =>
      obtain ⟨t, ht⟩ := exec_completes i s
      obtain ⟨q, hq⟩ := exec_setP p ht
      rw [step_of_fetch hrun hf, ht]
      exact ⟨q, (step_of_fetch (s := s.setP p) hrun hf).trans hq⟩

/-! A register is either overwritten by the instruction, or passed on as it was. -/

theorem exec_setA (hm : i.mnemonic ∉ [.sta, .tax]) (h : exec i s = .next t) :
    exec i (s.setA v) = .next (if i.mnemonic ∈ [.lda, .txa] then t else t.setA v) := by
  cases i with
  | staZp | staZpX | staAbs | staAbsX | staAbsY | staIndX | staIndY | tax => simp [Instr.mnemonic] at hm
  | _ =>
    cases h
    rfl

theorem exec_setX (hm : i.mnemonic ∉ [.stx, .txa, .inx]) (hmode : i.mode ∉ [.zeroPageX, .absoluteX, .indirectX])
    (h : exec i s = .next t) : exec i (s.setX v) = .next (if i.mnemonic ∈ [.ldx, .tax] then t else t.setX v) := by
  cases i with
  | stxZp | stxZpY | stxAbs | txa | inx => simp [Instr.mnemonic] at hm
  | ldaZpX | ldyZpX | staZpX | styZpX | ldaAbsX | ldyAbsX | staAbsX | ldaIndX | staIndX => simp [Instr.mode] at hmode
  | _ =>
    cases h
    rfl

theorem exec_setY (hm : i.mnemonic ≠ .sty) (hmode : i.mode ∉ [.zeroPageY, .absoluteY, .indirectY])
    (h : exec i s = .next t) : exec i (s.setY v) = .next (if i.mnemonic = .ldy then t else t.setY v) := by
  cases i with
  | styZp | styZpX | styAbs => simp [Instr.mnemonic] at hm
  | ldxZpY | stxZpY | ldaAbsY | ldxAbsY | staAbsY | ldaIndY | staIndY => simp [Instr.mode] at hmode
  | _ =>
    cases h
    rfl

theorem exec_setSp (hm : i.mnemonic ∉ [.jsr, .rts]) (h : exec i s = .next t) :
    exec i (s.setSp v) = .next (t.setSp v) := by
  cases i with
  | jsrAbs | rts => simp [Instr.mnemonic] at hm
  | _ =>
    cases h
    rfl

/-- Settles O34: one lemma for each register. -/
theorem registersReadOnlyWhereListed : Obligations.RegistersReadOnlyWhereListed := fun _ _ _ v h =>
  ⟨fun hm => exec_setA v hm h, fun hm hmode => exec_setX v hm hmode h, fun hm hmode => exec_setY v hm hmode h,
    fun hm => exec_setSp v hm h⟩

end Sys2Proof.Machine
end

section
/-! PROOFS. The step against Step() as the spec's pseudocode writes it, under any parameters (41_dispatch.md R75,
30_encoding.md R57, 60_exceptions.md R102). -/

open Sys2Proof.Claims

namespace Sys2Proof.Machine

/-! ## The handler of a well-formed pair -/

/-- Only a resolving instruction with Implied has no handler, and R57 rules that pair out. -/
theorem execAny_of_pairWf {m : Mnemonic} {mode : Mode} (h : pairWf m mode = true) (base : Addr) (s : State) :
    ∃ hd, execAny base m mode s = some hd := by
  cases m with
  | tax | txa | inx | rts | brk => exact ⟨_, rfl⟩
  | lda | ldx | ldy | sta | stx | sty | jmp | jsr =>
    have hmode : mode ≠ .implied := by simpa [pairWf, Mnemonic.resolves] using h
    obtain ⟨addr, hea⟩ := Option.ne_none_iff_exists'.mp (mt (ea_eq_none_iff mode s).mp hmode)
    simp only [execAny, hea]
    exact ⟨_, rfl⟩

theorem pairWf_of_lookup {t : List Row} {op : Byte} {m : Mnemonic} {mode : Mode} (ht : tableWf t = true)
    (hl : lookup t op = some (m, mode)) : pairWf m mode = true := by
  obtain ⟨hpairs, -⟩ := Bool.and_eq_true_iff.mp ht
  obtain ⟨r, hr, hrow⟩ := Option.map_eq_some_iff.mp hl
  cases hrow
  exact List.all_eq_true.mp hpairs r (List.mem_of_find?_eq_some hr)

variable {c : Params} {s t : State}

theorem stepWith_of_lookup_none (hc : c.refusal = none) (hrun : s.run = .running)
    (hl : lookup c.optable (s.busRead s.pc) = none) :
    stepWith c s = .next (raiseUnsupportedOpcode (s.busRead s.pc) s) := by
  simp only [stepWith, hc, hrun, hl]

/-- On a Running core with admitted parameters every step completes. -/
theorem stepWith_completes (hc : c.refusal = none) (hrun : s.run = .running) : ∃ t, stepWith c s = .next t := by
  obtain ⟨ht, -⟩ := c.refusal_eq_none_iff.mp hc
  cases hl : lookup c.optable (s.busRead s.pc) with
  | none => exact ⟨_, stepWith_of_lookup_none hc hrun hl⟩
  | some row =>
    obtain ⟨hd, hhd⟩ := execAny_of_pairWf (pairWf_of_lookup ht hl) c.stackBase s.pastOpcode
    exact ⟨_, stepWith_of_execAny hc hrun hl hhd⟩

/-- With admitted parameters a core that is not Running answers as `step` does (R126). -/
theorem stepWith_of_not_running (hc : c.refusal = none) (hrun : s.run ≠ .running) : stepWith c s = step s := by
  cases h : s.run with
  | running => exact absurd h hrun
  | powerOn | halted | faulted => simp only [stepWith, step, hc, h]

/-! ## The operand carried and the operand read at PC -/

theorem eq_word_of_bytes {w : Addr} {b1 b2 : Byte} (h : [loByte w, hiByte w] = [b1, b2]) : w = word b2 b1 := by
  obtain ⟨hlo, htail⟩ := List.cons.inj h
  rw [← hlo, ← (List.cons.inj htail).1, word_hiByte_loByte]

/-- An instruction whose operand bytes stand at PC is its mnemonic's handler in its mode: resolving the operand
at PC finds what the instruction carries. -/
theorem exec_eq_execAny {i : Instr}
    (h : i.operandBytes = [s.busRead (s.pc + 1), s.busRead (s.pc + 1 + 1)].take (operandSize i.mode).toNat) :
    ∃ hd, execAny stackBase i.mnemonic i.mode s.pastOpcode = some hd ∧
      exec i s = .next (finish (operandSize i.mode) hd) := by
  cases i with
  | brk | rts | txa | tax | inx => exact ⟨_, rfl, rfl⟩
  | jmpInd b1 | staIndX b1 | styZp b1 | staZp b1 | stxZp b1 | staIndY b1 | styZpX b1 | staZpX b1 | stxZpY b1
  | ldyImm b1 | ldaIndX b1 | ldxImm b1 | ldyZp b1 | ldaZp b1 | ldxZp b1 | ldaImm b1 | ldaIndY b1 | ldyZpX b1
  | ldaZpX b1 | ldxZpY b1 =>
    cases (List.cons.inj h).1
    exact ⟨_, rfl, rfl⟩
  | jsrAbs w | jmpAbs w | styAbs w | staAbs w | stxAbs w | staAbsY w | staAbsX w | ldyAbs w | ldaAbs w
  | ldxAbs w | ldaAbsY w | ldyAbsX w | ldaAbsX w | ldxAbsY w =>
    cases eq_word_of_bytes h
    exact ⟨_, rfl, rfl⟩

/-- Settles O12: on a Running core both steps look the opcode byte up in one table, and the instruction fetched is
the handler found there; on any other core both answer the run state. -/
theorem stepIsReferenceStep : Obligations.StepIsReferenceStep := by
  intro s
  by_cases hrun : s.run = .running
  · cases hf : s.fetch with
    | none =>
      have hl := fetch_eq_none_iff.mp hf
      rw [step_of_lookup_none hrun hl, stepWith_of_lookup_none defaultParams_admitted hrun hl]
    | some i =>
      have hbytes := operandBytes_of_fetch hf
      rw [← add_one_add_one s.pc] at hbytes
      obtain ⟨hd, hany, hexec⟩ := exec_eq_execAny hbytes
      rw [step_of_fetch hrun hf, hexec,
        stepWith_of_execAny defaultParams_admitted hrun (lookup_of_fetch hf) hany]
  · exact (stepWith_of_not_running defaultParams_admitted hrun).symm

/-! ## Refused parameters -/

theorem rowDefect_hasDefect {r : Row} {rs : List Row} {d : TableDefect} (h : rowDefect r rs = some d) :
    hasDefect (r :: rs) d := by
  unfold rowDefect at h
  split at h
  next hbad =>
    cases h
    simpa [hasDefect] using hbad
  next =>
    split at h
    next hbad =>
      cases h
      simpa [hasDefect] using hbad
    next =>
      split at h
      next hbad =>
        cases h
        obtain ⟨r', hr', hop⟩ := List.any_eq_true.mp hbad
        exact ⟨[], rs, r', rfl, hr', beq_iff_eq.mp hop⟩
      next => cases h

/-- A defect of a table is one of every longer table. -/
theorem hasDefect_cons {rs : List Row} {d : TableDefect} (r : Row) (h : hasDefect rs d) : hasDefect (r :: rs) d := by
  cases d with
  | invalidAddressingMode | operandUnused =>
    obtain ⟨hmem, hbad⟩ := h
    exact ⟨List.mem_cons_of_mem r hmem, hbad⟩
  | opcodeListedTwice =>
    obtain ⟨before, after, r', rfl, hr', hop⟩ := h
    exact ⟨r :: before, after, r', rfl, hr', hop⟩

/-- The defect the start-up check names is one the table has, of the entry it names (R100, R102). -/
theorem tableDefect_hasDefect {table : List Row} {d : TableDefect} (h : tableDefect table = some d) :
    hasDefect table d := by
  induction table with
  | nil => cases h
  | cons r rs ih =>
    cases hr : rowDefect r rs with
    | some d' =>
      rw [tableDefect, hr] at h
      cases h
      exact rowDefect_hasDefect hr
    | none =>
      rw [tableDefect, hr] at h
      exact hasDefect_cons r (ih h)

theorem refusal_of_tableDefect {d : TableDefect} (h : tableDefect c.optable = some d) :
    c.refusal = some (.illFormedTable d) := by
  simp only [Params.refusal, h]

theorem refusal_of_stackBase (ht : tableWf c.optable = true) (hb : Config.stackBaseAdmitted c.stackBase = false) :
    c.refusal = some .stackBaseNotAdmitted := by
  simp [Params.refusal, (tableDefect_eq_none_iff _).mpr ht, hb]

/-- Settles O13: the refusal is the one the check of the parameters gives; admitted parameters give a step that
completes, or the run state of a stopped core. -/
theorem illFormedParametersAreRefused : Obligations.IllFormedParametersAreRefused := by
  refine fun c s => ⟨fun ht => ?_, fun ht hb => stepWith_of_refused (refusal_of_stackBase ht hb) s, fun row h => ?_⟩
  · have hne : tableDefect c.optable ≠ none := by simp [tableDefect_eq_none_iff, ht]
    obtain ⟨d, hd⟩ := Option.ne_none_iff_exists'.mp hne
    exact ⟨d, stepWith_of_refused (refusal_of_tableDefect hd) s, tableDefect_hasDefect hd⟩
  · cases hc : c.refusal with
    | some r => cases (stepWith_of_refused hc s).symm.trans h
    | none =>
      cases hrun : s.run with
      | running =>
        obtain ⟨t, ht⟩ := stepWith_completes hc hrun
        cases ht.symm.trans h
      | powerOn | halted | faulted => simp [stepWith, hc, hrun] at h

end Sys2Proof.Machine
end

section
/-! PROOFS. The bus transactions of a step (20_memory.md R44). -/

open Sys2Proof.Claims

namespace Sys2Proof.Machine

variable {c : Params} {s t : State}

/-! ## Reads, and writes that give the memory -/

/-- The transaction is a read of a cell as it stands in `s`. -/
def ReadsFrom (s : State) (e : BusEvent) : Prop := ∃ addr, e = readEvent s addr

theorem ReadsFrom.isWrite {e : BusEvent} (h : ReadsFrom s e) : e.isWrite = false := by
  obtain ⟨addr, rfl⟩ := h
  rfl

theorem foldl_apply_reads {rs : List BusEvent} (hr : ∀ e ∈ rs, ReadsFrom s e) (u : State) :
    rs.foldl BusEvent.apply u = u := by
  induction rs with
  | nil => rfl
  | cons e es ih =>
    obtain ⟨addr, rfl⟩ := hr e List.mem_cons_self
    exact ih fun e' he' => hr e' (List.mem_cons_of_mem _ he')

/-- What transactions do to Mem depends on Mem alone. -/
theorem foldl_apply_mem (es : List BusEvent) {u v : State} (h : u.mem = v.mem) :
    (es.foldl BusEvent.apply u).mem = (es.foldl BusEvent.apply v).mem := by
  induction es generalizing u v with
  | nil => exact h
  | cons e es ih =>
    refine ih ?_
    cases e with
    | read => exact h
    | write addr b => exact congrArg (Memory.set · addr.toNat b) h

/-- Reads of `s` followed by writes that replay to the memory of `t` account for the step. -/
theorem traceAccounts_of_reads_writes {rs ws : List BusEvent} (hr : ∀ e ∈ rs, ReadsFrom s e)
    (hw : ∀ e ∈ ws, e.isWrite = true) (hmem : (ws.foldl BusEvent.apply s).mem = t.mem) :
    TraceAccounts (rs ++ ws) s t := by
  refine ⟨⟨rs, ws, rfl, fun e he => (hr e he).isWrite, hw⟩, fun addr v he => ?_, ?_⟩
  · rcases List.mem_append.mp he with he | he
    · obtain ⟨addr', heq⟩ := hr _ he
      cases heq
      rfl
    · cases hw _ he
  · rw [List.foldl_append, foldl_apply_reads hr, hmem]

/-! ## The two parts of a trace -/

theorem resolverEvents_reads (mode : Mode) (s : State) : ∀ e ∈ resolverEvents mode s, ReadsFrom s e := by
  cases mode <;> simp [resolverEvents, pointerEvents, ReadsFrom, readEvent]

/-- An instruction's own accesses are reads, with Mem left as it was, or writes, which leave Mem as the handler
does. -/
theorem dataEvents_cases {base : Addr} {m : Mnemonic} {mode : Mode} {hd : Handled}
    (h : execAny base m mode s = some hd) :
    ((∀ e ∈ dataEvents base m mode s, ReadsFrom s e) ∧ s.mem = hd.st.mem) ∨
      (∀ e ∈ dataEvents base m mode s, e.isWrite = true) ∧
        ((dataEvents base m mode s).foldl BusEvent.apply s).mem = hd.st.mem := by
  cases m with
  | lda | ldx | ldy =>
    obtain ⟨addr, hea, rfl⟩ := Option.map_eq_some_iff.mp h
    exact .inl ⟨by simp [dataEvents, hea, ReadsFrom, readEvent], rfl⟩
  | sta | stx | sty =>
    obtain ⟨addr, hea, rfl⟩ := Option.map_eq_some_iff.mp h
    simp only [dataEvents, hea]
    exact .inr ⟨by simp [BusEvent.isWrite], rfl⟩
  | jsr =>
    obtain ⟨addr, hea, rfl⟩ := Option.map_eq_some_iff.mp h
    exact .inr ⟨by simp [dataEvents, BusEvent.isWrite], rfl⟩
  | rts =>
    cases h
    exact .inl ⟨by simp [dataEvents, ReadsFrom, readEvent], rfl⟩
  | jmp =>
    obtain ⟨addr, hea, rfl⟩ := Option.map_eq_some_iff.mp h
    exact .inl ⟨by simp [dataEvents], rfl⟩
  | tax | txa | inx | brk =>
    cases h
    exact .inl ⟨by simp [dataEvents], rfl⟩

theorem busTrace_of_lookup_none (hc : c.refusal = none) (hrun : s.run = .running)
    (hl : lookup c.optable (s.busRead s.pc) = none) : busTrace c s = [readEvent s s.pc] := by
  simp only [busTrace, hc, hrun, hl]

theorem busTrace_of_lookup {m : Mnemonic} {mode : Mode} (hc : c.refusal = none) (hrun : s.run = .running)
    (hl : lookup c.optable (s.busRead s.pc) = some (m, mode)) :
    busTrace c s =
      readEvent s s.pc :: (resolverEvents mode s.pastOpcode ++ dataEvents c.stackBase m mode s.pastOpcode) := by
  simp only [busTrace, hc, hrun, hl]

theorem busTrace_of_not_running (hrun : s.run ≠ .running) : busTrace c s = [] := by
  cases hc : c.refusal with
  | some r => exact busTrace_of_refused hc s
  | none =>
    cases h : s.run with
    | running => exact absurd h hrun
    | powerOn | halted | faulted => simp only [busTrace, hc, h]

/-! ## The whole trace -/

theorem traceAccounts_busTrace (h : stepWith c s = .next t) : TraceAccounts (busTrace c s) s t := by
  obtain ⟨hc, hrun, ⟨hl, rfl⟩ | ⟨m, mode, hd, hl, hany, rfl⟩⟩ := stepWith_cases h
  · have hread : ∀ e ∈ [readEvent s s.pc], ReadsFrom s e := List.forall_mem_cons.mpr ⟨⟨s.pc, rfl⟩, by simp⟩
    rw [busTrace_of_lookup_none hc hrun hl]
    exact traceAccounts_of_reads_writes (rs := [readEvent s s.pc]) (ws := []) hread (by simp) rfl
  · obtain ⟨-, -, -, -, -, hmem⟩ := finish_frame (operandSize mode) hd
    have hresolve : ∀ e ∈ readEvent s s.pc :: resolverEvents mode s.pastOpcode, ReadsFrom s e :=
      List.forall_mem_cons.mpr ⟨⟨s.pc, rfl⟩, resolverEvents_reads mode s.pastOpcode⟩
    rw [busTrace_of_lookup hc hrun hl, ← List.cons_append]
    rcases dataEvents_cases hany with ⟨hreads, hd_mem⟩ | ⟨hwrites, hd_mem⟩
    · have hall := List.forall_mem_append.mpr ⟨hresolve, hreads⟩
      simpa using traceAccounts_of_reads_writes (ws := []) hall (by simp) (hd_mem.trans hmem.symm)
    · refine traceAccounts_of_reads_writes hresolve hwrites ?_
      rw [hmem, ← hd_mem]
      exact foldl_apply_mem _ rfl

/-- Settles O55: where a step completes, by what it ran; elsewhere the parameters are refused or the core is not
Running, for a Running core with admitted parameters has a step. -/
theorem busTraceUnderAnyParameters : Obligations.BusTraceUnderAnyParameters := by
  refine fun c s => ⟨fun t h => traceAccounts_busTrace h, fun hnone => ?_⟩
  cases hc : c.refusal with
  | some r => exact busTrace_of_refused hc s
  | none =>
    refine busTrace_of_not_running fun hrun => ?_
    obtain ⟨t, ht⟩ := stepWith_completes hc hrun
    exact hnone t ht

/-- After the opcode byte an instruction has at most four accesses: the store through a pointer and JSR have four. -/
theorem length_events_le (i : Instr) (s : State) :
    (resolverEvents i.mode s ++ dataEvents stackBase i.mnemonic i.mode s).length ≤ 4 := by
  cases i <;> exact Nat.le_of_ble_eq_true rfl

theorem length_busTrace_le (s : State) : (busTrace defaultParams s).length ≤ 5 := by
  by_cases hrun : s.run = .running
  · cases hf : s.fetch with
    | none =>
      rw [busTrace_of_lookup_none defaultParams_admitted hrun (fetch_eq_none_iff.mp hf)]
      simp
    | some i =>
      rw [busTrace_of_lookup defaultParams_admitted hrun (lookup_of_fetch hf), List.length_cons]
      exact Nat.succ_le_succ (length_events_le i s.pastOpcode)
  · rw [busTrace_of_not_running hrun]
    simp

/-- Settles O42: the step is that of the default parameters, and its accesses are counted by instruction. -/
theorem busTraceAccountsForMemory : Obligations.BusTraceAccountsForMemory := fun s _ h =>
  ⟨traceAccounts_busTrace (stepIsReferenceStep s ▸ h), length_busTrace_le s⟩

end Sys2Proof.Machine
end

section
/-! PROOFS. Steps of the control transfers: a call under either stack base, a call and its return, and a store seen
by the next fetch (20_memory.md R43, 44_stack_control_transfer.md R90, R94, R96). -/

open Sys2Proof.Claims

namespace Sys2Proof.Machine

variable {s t : State}

/-! ## JSR -/

/-- The target a JSR at PC names: the word in its two operand bytes (R94). -/
theorem fetch_of_jsr (hop : s.busRead s.pc = 0x20) :
    s.fetch = some (.jsrAbs (word (s.busRead (s.pc + 2)) (s.busRead (s.pc + 1)))) := by
  rw [State.fetch, hop]
  rfl

theorem fetch_of_rts (hop : s.busRead s.pc = 0x60) : s.fetch = some .rts := by
  rw [State.fetch, hop]
  rfl

/-- Settles O29: the target is in the instruction before anything is pushed. -/
theorem jsrUsesOperandAsFetched : Obligations.JsrUsesOperandAsFetched := by
  intro s hrun hop
  rw [step_of_fetch hrun (fetch_of_jsr hop), exec_jsrAbs_eq_push]
  exact ⟨_, rfl, rfl⟩

/-! ## A call and its return -/

/-- The step of an RTS in a state with a return address `ret` in the two cells above SP. -/
theorem step_of_rts {ret : Addr} (hrun : s.run = .running) (hop : s.busRead s.pc = 0x60)
    (hlo : s.busRead (stackAddr stackBase (s.sp + 1)) = loByte ret)
    (hhi : s.busRead (stackAddr stackBase (s.sp + 2)) = hiByte ret) :
    step s = .next { s with sp := s.sp + 2, pc := ret + 1 } := by
  rw [step_of_fetch hrun (fetch_of_rts hop), exec_rts_eq, hlo, hhi, word_hiByte_loByte]

/-- Settles O39: after the JSR the two cells above SP hold PC + 2, which the RTS pops. -/
theorem callAndReturnRoundTrip : Obligations.CallAndReturnRoundTrip := by
  intro s t hrun hop hstep hrts
  rw [step_of_fetch hrun (fetch_of_jsr hop)] at hstep
  obtain ⟨-, -, u, hexec, hhi, hlo, -, hframe⟩ :=
    jsrResult s (word (s.busRead (s.pc + 2)) (s.busRead (s.pc + 1)))
  cases hexec.symm.trans hstep
  have hsp : t.sp = s.sp - 2 := by rw [hframe]
  have hsp1 : s.sp - 1 = t.sp + 1 := by rw [hsp]; bv_omega
  have hsp2 : s.sp = t.sp + 2 := by rw [hsp, BitVec.sub_add_cancel]
  have hrun' : t.run = .running := by rw [hframe, hrun]
  rw [hsp2] at hhi
  rw [hsp1] at hlo
  rw [step_of_rts hrun' hrts hlo hhi, ← hsp2, BitVec.add_assoc]
  conv =>
    lhs
    rw [hframe]
  rfl

/-! ## The other stack base -/

theorem stackAddr_zero (sp : Byte) : stackAddr 0 sp = zext sp := BitVec.zero_add _

theorem stepWith_of_jsr {base : Addr} (hbase : Config.stackBaseAdmitted base = true) (hrun : s.run = .running)
    (hop : s.busRead s.pc = 0x20) :
    stepWith ⟨base, optable⟩ s =
      .next ((push base (loByte (s.pc + 2)) (push base (hiByte (s.pc + 2)) s)).setPc
        (word (s.busRead (s.pc + 2)) (s.busRead (s.pc + 1)))) := by
  have hc : Params.refusal ⟨base, optable⟩ = none := 
    (Params.refusal_eq_none_iff _).mpr ⟨(defaultParams.refusal_eq_none_iff.mp defaultParams_admitted).1, hbase⟩
  have hl : lookup optable (s.busRead s.pc) = some (.jsr, .absolute) := by rw [hop]; rfl
  have htarget : s.pastOpcode.read16 s.pastOpcode.pc = word (s.busRead (s.pc + 2)) (s.busRead (s.pc + 1)) := by
    rw [← add_one_add_one s.pc]
    rfl
  rw [stepWith_of_execAny hc hrun hl rfl, ← htarget, ← finish_jumpSubroutine]
  rfl

/-- Settles O40: the two pushes with base 0, whose stack cells are those of the zero page. -/
theorem stackBaseZeroPushesIntoZeroPage : Obligations.StackBaseZeroPushesIntoZeroPage := by
  intro s hrun hop
  refine ⟨_, stepWith_of_jsr rfl hrun hop, ?_, ?_, fun c h0 h1 => ?_, ?_⟩
  · rw [State.busRead_setPc, ← stackAddr_zero, busRead_push_push_fst]
  · rw [State.busRead_setPc, ← stackAddr_zero, busRead_push_push_snd]
  · rw [← stackAddr_zero] at h0 h1
    rw [State.busRead_setPc, busRead_push_push_ne _ _ _ s h0 h1]
  · rw [push_push_frame]
    rfl

/-! ## A store over the next instruction -/

/-- Settles O41: the stored byte is in the cell PC names after the step, and is what the next step looks up. -/
theorem storeIsSeenByNextFetch : Obligations.StoreIsSeenByNextFetch := by
  intro s t hrun hf hstep
  rw [step_of_fetch hrun hf] at hstep
  have hstores : Stores 0x8D .absolute (.staAbs (s.pc + 3)) (s.pc + 3) s.a 3 s :=
    stores_of_exec (exec_staAbs (s.pc + 3) s) rfl
  obtain ⟨-, -, u, hexec, hread, -, hframe⟩ := hstores
  cases hexec.symm.trans hstep
  have hpc : t.pc = s.pc + 3 := by rw [hframe]
  have hrun' : t.run = .running := by rw [hframe, hrun]
  have hbyte : t.busRead t.pc = s.a := hpc ▸ hread
  refine ⟨hbyte, fun hl => ?_⟩
  rw [unsupportedOpcodeFaultsTheCore t hrun' (hbyte ▸ hl), hbyte, hpc, BitVec.add_assoc]
  rfl

end Sys2Proof.Machine
end

section
/-! PROOFS. The host's operations: requests and runs (70_reset_and_hazards.md R125, R126, R131). -/

open Sys2Proof.Claims

namespace Sys2Proof.Machine

variable {s t : State}

/-! ## Requests -/

theorem stepRequest_of_next (h : step s = .next t) : stepRequest s = (t, t.run) := by
  rw [stepRequest, h]

theorem stepRequest_of_not_running (hrun : s.run ≠ .running) : stepRequest s = (s, s.run) := by
  obtain ⟨f, hf⟩ := step_of_not_running hrun
  rw [stepRequest, hf]

theorem runFor_of_not_running (hrun : s.run ≠ .running) (k : Nat) : runFor k s = s := by
  induction k with
  | zero => rfl
  | succ k ih => rw [runFor, stepRequest_of_not_running hrun, ih]

theorem runFor_add (j k : Nat) (s : State) : runFor (j + k) s = runFor k (runFor j s) := by
  induction j generalizing s with
  | zero => rw [Nat.zero_add, runFor]
  | succ j ih => rw [Nat.succ_add, runFor, runFor, ih]

/-- Settles O10: a request finds no step enabled, and neither does any after it. -/
theorem stoppedCoreStaysAsItIs : Obligations.StoppedCoreStaysAsItIs := fun _ hrun =>
  ⟨stepRequest_of_not_running hrun, runFor_of_not_running hrun⟩

theorem core_run_eq_runFor (k : Nat) (s : State) (h : ∀ j, j < k → (runFor j s).run = .running) :
    Host.Core.run core k s = .next (runFor k s) := by
  induction k generalizing s with
  | zero => rfl
  | succ k ih =>
    obtain ⟨t, ht⟩ := (stepCompletesExactlyWhenRunning s).mpr (h 0 k.succ_pos)
    have hrunFor : ∀ j, runFor (j + 1) s = runFor j t := fun j => by rw [runFor, stepRequest_of_next ht]
    rw [run_succ_of_step (M := core) ht, hrunFor]
    exact ih t fun j hj => hrunFor j ▸ h (j + 1) (Nat.succ_lt_succ hj)

/-- Settles O51: induction on the requests; and a core once stopped is left as it is. -/
theorem stepRequestsAreIterationsOfRun : Obligations.StepRequestsAreIterationsOfRun := by
  refine ⟨core_run_eq_runFor, fun j k s hrun => ?_⟩
  rw [runFor_add, runFor_of_not_running hrun]

/-! ## Runs -/

theorem runFor_ne_powerOn (hs : s.run ≠ .powerOn) (k : Nat) : (runFor k s).run ≠ .powerOn := by
  induction k generalizing s with
  | zero => exact hs
  | succ k ih =>
    by_cases hrun : s.run = .running
    · obtain ⟨t, ht⟩ := (stepCompletesExactlyWhenRunning s).mpr hrun
      rw [runFor, stepRequest_of_next ht]
      exact ih (step_run_ne_powerOn ht)
    · rwa [runFor_of_not_running hrun]

/-- Of two numbers of steps that end a run, the larger adds nothing to the smaller. -/
theorem runReturns_unique {u : State} (ht : RunReturns s t) (hu : RunReturns s u) : t = u := by
  obtain ⟨j, rfl, hj⟩ := ht
  obtain ⟨k, rfl, hk⟩ := hu
  rcases Nat.le_total j k with h | h
  · obtain ⟨d, rfl⟩ := Nat.exists_eq_add_of_le h
    rw [runFor_add, runFor_of_not_running hj]
  · obtain ⟨d, rfl⟩ := Nat.exists_eq_add_of_le h
    rw [runFor_add, runFor_of_not_running hk]

theorem runReturns_halted_or_faulted (hs : s.run = .running) (h : RunReturns s t) :
    t.run = .halted ∨ ∃ c, t.run = .faulted c := by
  obtain ⟨k, rfl, hstop⟩ := h
  have hpower : (runFor k s).run ≠ .powerOn := runFor_ne_powerOn (by simp [hs]) k
  cases hrun : (runFor k s).run with
  | powerOn => exact absurd hrun hpower
  | running => exact absurd hrun hstop
  | halted => exact .inl rfl
  | faulted c => exact .inr ⟨c, rfl⟩

/-- Settles O52: the end of a run is unique, so a Faulted end excludes a Halted one. -/
theorem runReturnsOnce : Obligations.RunReturnsOnce := by
  refine ⟨fun _ _ _ => runReturns_unique, fun _ _ => runReturns_halted_or_faulted, ?_⟩
  rintro s t c ht hfault ⟨u, hu, hhalt⟩
  cases runReturns_unique ht hu
  cases hfault.symm.trans hhalt

/-- Settles O53: the jump puts PC back where it was, so every request leaves the Running state it found. -/
theorem jmpToItselfNeverReturns : Obligations.JmpToItselfNeverReturns := by
  intro s hrun hf
  have hstep : step s = .next s := step_of_fetch hrun hf
  have hstay : ∀ k, runFor k s = s := fun k => by
    induction k with
    | zero => rfl
    | succ k ih => rw [runFor, stepRequest_of_next hstep, ih]
  refine ⟨hstay, fun ⟨t, k, ht, hstop⟩ => hstop ?_⟩
  rw [← ht, hstay k, hrun]

/-- Settles O54: no step starts or ends in PowerOn, and load keeps RUN while reset sets it. -/
theorem powerOnIsLeftOnlyByReset : Obligations.PowerOnIsLeftOnlyByReset := fun _ =>
  ⟨step_of_powerOn, fun _ => step_run_ne_powerOn, fun _ _ h => by rw [load_frame h], rfl⟩

end Sys2Proof.Machine
end

section
/-! PROOFS. The host's operations: load and reset (70_reset_and_hazards.md R122, R124, R130). -/

open Sys2Proof.Claims

namespace Sys2Proof.Machine

variable {image : List Byte}

/-! ## The image in memory -/

theorem add_one_add_ofNat (addr : Addr) (k : Nat) :
    addr + 1 + BitVec.ofNat 16 k = addr + BitVec.ofNat 16 (k + 1) := by
  rw [BitVec.ofNat_add, BitVec.add_comm (BitVec.ofNat 16 k), ← BitVec.add_assoc]
  rfl

/-- A cell that is none of the image's reads as before. -/
theorem busRead_writeImage_ne {addr c : Addr} (s : State)
    (hc : ∀ k < image.length, c ≠ addr + BitVec.ofNat 16 k) : (writeImage image addr s).busRead c = s.busRead c := by
  induction image generalizing addr s with
  | nil => rfl
  | cons b bs ih =>
    rw [writeImage, ih _ fun k hk => ?_]
    · exact s.busRead_busWrite_ne b (by simpa using hc 0 (by simp))
    · rw [add_one_add_ofNat]
      exact hc (k + 1) (by simpa using hk)

/-- An image no longer than the address space does not meet itself, so each of its bytes stands where it was
copied. -/
theorem busRead_writeImage {addr : Addr} (s : State) (hlen : image.length ≤ 65536) {k : Nat}
    (hk : k < image.length) : (writeImage image addr s).busRead (addr + BitVec.ofNat 16 k) = image[k] := by
  induction image generalizing addr s k with
  | nil => cases hk
  | cons b bs ih =>
    rw [List.length_cons] at hlen hk
    cases k with
    | zero =>
      rw [writeImage, busRead_writeImage_ne _ fun j hj => ?_]
      · simp
      · bv_omega
    | succ k =>
      rw [← add_one_add_ofNat]
      exact ih (s.busWrite addr b) (by omega) (by omega)

/-! ## Load -/

/-- Cells outside the reset vector are not touched when it is written. -/
theorem busRead_write16_resetVector {c : Addr} (hc : ¬ inVector c) (s : State) (w : Addr) :
    (s.write16 Config.resetVector w).busRead c = s.busRead c := by
  obtain ⟨h0, h1⟩ := not_or.mp hc
  exact busRead_write16_ne s _ w h0 h1

theorem ne_image_address {c : Addr} {n k : Nat} (hn : n ≤ 0x8000) (hk : k < n)
    (hc : c.toNat < 0x8000 ∨ 0x8000 + n ≤ c.toNat) : c ≠ 0x8000 + BitVec.ofNat 16 k := by
  bv_omega

/-- Settles O48: the image by the copy, the two vector cells by the write that comes last, the rest by their
frames. -/
theorem loadEffect : Obligations.LoadEffect := by
  intro image s hlen
  have hload := load_of_length_le hlen s
  refine ⟨_, hload, fun k hk hv => ?_, ?_, ?_, fun c hv hc => ?_, load_frame hload⟩
  · rw [busRead_write16_resetVector hv, busRead_writeImage s (by omega) hk]
  · exact busRead_write16_low _ Config.resetVector Config.loadOrigin
  · exact busRead_write16_high _ Config.resetVector Config.loadOrigin
  · rw [busRead_write16_resetVector hv]
    exact busRead_writeImage_ne s fun k hk => ne_image_address hlen hk hc

/-- Settles O49: by the length. -/
theorem tooLargeImageIsRefused : Obligations.TooLargeImageIsRefused := fun _ s =>
  ⟨fun hlen => load_of_length_gt hlen s, fun hlen => ⟨_, load_of_length_le hlen s⟩⟩

/-! ## Reset -/

/-- A constructed core reads 0x00 at every address (R22). -/
theorem busRead_construct (u : PowerOnRegs) (c : Addr) : (construct u).busRead c = 0x00 := rfl

/-- Settles O47: reset depends on Mem only, and the memory of a constructed core is empty. -/
theorem resetOfConstructedCore : Obligations.ResetOfConstructedCore := by
  refine ⟨fun _ => rfl, fun u => ⟨rfl, ?_, rfl⟩⟩
  rw [resetEffect, busRead_construct, busRead_construct]
  rfl

/-- Settles O50: what load leaves, with PC read from the vector it wrote. -/
theorem launchState : Obligations.LaunchState := by
  intro u image hlen
  obtain ⟨l, hload, himage, hlo, hhi, hframe, -⟩ := loadEffect image (construct u) hlen
  refine ⟨l, resetCore l, hload, rfl, ?_, hlo, hhi, himage, hframe⟩
  rw [resetEffect l, hlo, hhi]
  rfl

end Sys2Proof.Machine
end
